-- ==== Sys2Proof/Word.lean ====
section
/-! DEFINITION. The two widths of the TEJ4M-2-03 core: an eight-bit instruction or data word, and the
four-bit field that an opcode and an operand each fill (00_scope.md R6, 30_encoding.md R71). -/

namespace Sys2Proof

/-- An instruction or data word: `WORD_BITS` = 8 bits, numbered 7 down to 0 (R6, R7). -/
abbrev Word := BitVec 8

/-- An opcode or operand field: `OPCODE_BITS` = `OPERAND_BITS` = 4 bits (R6). -/
abbrev Nibble := BitVec 4

end Sys2Proof
end

