-- ==== Sys2Proof/Config.lean ====
section
/-! DEFINITION. The implementation parameters of 00_scope.md R6: the constants the source fixes, the
parameters it leaves OPEN with every choice the spec names, and the one free value of the model. -/

namespace Sys2Proof

/-- `MEM_CELLS` (R6, R50): cells 0 to 15. -/
def Config.memCells : Nat := 16

/-- `WORD_BITS` (R6). -/
def Config.wordBits : Nat := 8

/-- `OPCODE_BITS` (R6). -/
def Config.opcodeBits : Nat := 4

/-- `OPERAND_BITS` (R6). -/
def Config.operandBits : Nat := 4

/-- `ACC_NOMINAL_BITS` (R6): the nominal width of A; ADD carries above `2 ^ 4 - 1`. -/
def Config.accNominalBits : Nat := 4

/-- `PAUSE_UNITS` (R6): the length of the debug pause, in a unit the spec does not give. No rule
depends on it (R226), so nothing in the model reads it. -/
def Config.pauseUnits : Nat := 3

/-- DESIGN CHOICE, safe (log 9). The value that `AddCarryTrunc` gives for a sum outside 16..30, where
R131 defines none. Nothing constrains it; no state within R21 reaches it. -/
opaque Config.carryTruncBeyond : Int → Nibble

/-- `ACC_BOUND` (R6, D3): how A is held. -/
inductive AccBound where
  /-- A is a mathematical integer (the default). -/
  | unbounded
  /-- A is a two's-complement number of `w` bits; a SUB result below its range is fatal. -/
  | signed (w : Nat)
deriving DecidableEq, Repr

/-- `PC_BOUND` (R6, D11): how the PC is held. -/
inductive PcBound where
  /-- The PC is a natural number (the default). -/
  | unbounded
  /-- The advance is taken modulo `2 ^ w`. -/
  | wrap (w : Nat)
deriving DecidableEq, Repr

/-- `A_RESET` (R6, D4): what A holds at reset. -/
inductive AReset where
  /-- A holds no value until its first write (the default). -/
  | unset
  /-- A holds `v`, which is in 0..15. -/
  | value (v : Nibble)
deriving DecidableEq, Repr

/-- `LDA_ADDR_SELECT` (R6, R111, D28): which field of the LDA word names the cell it reads. -/
inductive LdaAddrSelect where
  /-- The opcode field, so always cell 1 (the normative default). -/
  | opcodeField
  /-- The operand field (the corrected variant). -/
  | operandField
deriving DecidableEq, Repr

/-- The parameters that R6 marks OPEN or decided. `addCarryTrunc` is the function of
`ADD_CARRY_TRUNC` from 16..30 to 0..15 written as data: entry `k` is its value at `16 + k`. -/
structure Params where
  accBound : AccBound
  pcBound : PcBound
  aReset : AReset
  cfReset : Bool
  zfReset : Bool
  dbgReset : Bool
  addCarryTrunc : Vector Nibble 15
  ldaAddrSelect : LdaAddrSelect
deriving DecidableEq, Repr

/-- The default of `ADD_CARRY_TRUNC` (R131, D7): 16→0, 17→1, …, 30→14. -/
def Config.dropLeadingBit : Vector Nibble 15 :=
  #v[0, 1, 2, 3, 4, 5, 6, 7, 8, 9, 10, 11, 12, 13, 14]

/-- The defaults of R6. -/
def Params.standard : Params where
  accBound := .unbounded
  pcBound := .unbounded
  aReset := .unset
  cfReset := false
  zfReset := false
  dbgReset := false
  addCarryTrunc := Config.dropLeadingBit
  ldaAddrSelect := .opcodeField

end Sys2Proof
end

