-- ==== Sys2Proof/Machine/State.lean ====
section
/-! DEFINITION. The state of the core: the tuple of 10_state.md R20, with the parameters of R6 and the
bit that says whether the run has started (R103). Plain data throughout. -/

namespace Sys2Proof.Machine

/-- What one memory cell holds (R51). -/
inductive CellValue where
  /-- The source's unset cell. -/
  | empty
  | word (w : Word)
  /-- A cell the loader filled from a malformed line (R66). -/
  | invalid
deriving DecidableEq, Repr

/-- The memory: the cells that hold a word, and the cells that are `Invalid`; an unlisted cell is
`Empty` (R51, R66, log 6). `Memory.wf` in Machine/Ops.lean is its canonical form. -/
structure Memory where
  words : List Host.Cell
  invalid : List Nat
deriving DecidableEq, Repr

/-- A memory in which every cell is `Empty`. -/
def Memory.blank : Memory := { words := [], invalid := [] }

/-- Register A (R21, R23). `unset` is the spec's own state of A, not a missing reset value: it is the
default of `A_RESET`, and reading it is `Fatal(UnsetAccumulator)` (R11, R194, log 2). -/
inductive Acc where
  | unset
  | value (a : Int)
deriving DecidableEq, Repr

/-- The loop state (R32, R90). -/
inductive Status where
  | running
  | halted
  | errored
deriving DecidableEq, Repr

/-- The causes of a fatal error (R191). -/
inductive Cause where
  | invalidOpcode
  | malformedWord
  | unsetAccumulator
  | ldaSourceEmpty
  | ldaSourceInvalid
  | accumulatorRange
deriving DecidableEq, Repr

/-- The abstract console events (R10, log 15). -/
inductive Event where
  | start
  | traceAdd (a : Int) (imm : Nibble)
  | traceSub (a : Int) (imm : Nibble)
  | traceLdi (imm : Nibble)
  | debugState (b : Bool)
  | out (a : Int)
  | pause
  | warnCF (p : Nat)
  | warnZF (p : Nat)
  | errorReport (p : Nat) (r : Cause)
  | haltNotice
deriving DecidableEq, Repr

/-- The machine's state: R20's tuple, then the model's own two fields. -/
structure State where
  mem : Memory
  pc : Nat
  acc : Acc
  cf : Bool
  zf : Bool
  dbg : Bool
  halt : Bool
  status : Status
  err : Option Cause
  jumped : Bool
  log : List Event
  /-- The parameters of R6; no step changes them (log 1). -/
  params : Params
  /-- `Start` has been emitted (R103, R220, log 4). -/
  started : Bool
deriving DecidableEq, Repr

/-- Why a step has no next state. A fatal error of the core is none of these: it is a next state
(R190). -/
inductive Fault where
  /-- Raised by `step` in a state whose status is `Halted`: no further cycle runs (R102). Safe. -/
  | halted
  /-- Raised by `step` in a state whose status is `Errored`: no further cycle runs (R102). Safe. -/
  | errored
deriving DecidableEq, Repr

/-- Why an instruction is refused. -/
inductive Refusal where
  /-- Raised by `exec` for an instruction without a meaning; every instruction has one, so no arm
  raises it. Safe. -/
  | notModelled (mnemonic : String)
deriving DecidableEq, Repr

/-- The value of A that `A_RESET` gives (R23, R220). -/
def AReset.initial : AReset → Acc
  | .unset => .unset
  | .value v => .value v.toNat

/-- The state after steps 1 and 2 of R220: the loader's image is in memory and every piece of state
has its value of R37. `Start` is still to be emitted. -/
def State.resetWith (p : Params) (image : Memory) : State where
  mem := image
  pc := 0
  acc := AReset.initial p.aReset
  cf := p.cfReset
  zf := p.zfReset
  dbg := p.dbgReset
  halt := false
  status := .running
  err := none
  jumped := false
  log := []
  params := p
  started := false

/-- The machine right after reset, with the default parameters of R6 and nothing loaded (R37, R220). -/
def State.reset : State := State.resetWith Params.standard Memory.blank

end Sys2Proof.Machine
end

