-- ==== Sys2Proof/Machine/Flags.lean ====
section
/-! DEFINITION. Every flag computation of the spec (42_arithmetic.md R130, R133), each on the exact
integer result. -/

namespace Sys2Proof.Machine

/-- CF after ADD: `s > 15` on the intermediate sum, before truncation (R130). -/
def addCarry (sum : Int) : Bool := decide (sum > 15)

/-- ZF after ADD: `s = 0` on the intermediate sum, before truncation (R130). -/
def addZero (sum : Int) : Bool := decide (sum = 0)

/-- CF after SUB: `d < 0`, a borrow (R133). -/
def subBorrow (diff : Int) : Bool := decide (diff < 0)

/-- ZF after SUB: `d = 0` (R133). -/
def subZero (diff : Int) : Bool := decide (diff = 0)

end Sys2Proof.Machine
end

