-- ==== Sys2Proof/Syntax.lean ====
section
/-! DEFINITION. The twelve instructions of the opcode map (30_encoding.md R75), one constructor for each
row of spec/opcode_table.json. -/

namespace Sys2Proof

/-- An instruction (R75). An operand is a four-bit field, so every term can be encoded. NOP, DEBUG, OUT
and HLT carry no operand because all sixteen values of bits 3..0 give the same instruction (R77,
log 16). LDA keeps its field: `LdaAddr(op, imm)` reads it under `OperandField` (R111). -/
inductive Instr where
  | nop
  | lda (imm : Nibble)
  | add (imm : Nibble)
  | sub (imm : Nibble)
  | sta (imm : Nibble)
  | ldi (imm : Nibble)
  | jmp (imm : Nibble)
  | jc (imm : Nibble)
  | jz (imm : Nibble)
  | debug
  | out
  | hlt
deriving DecidableEq, Repr

end Sys2Proof
end

