-- ==== Sys2Proof/Decode.lean ====
section
/-! DEFINITION. The instruction format `F8`: its two fields, the decoder and the encoder
(30_encoding.md R70 to R82). -/

namespace Sys2Proof

/-- `op = w[7:4]` (R71). -/
def opField (w : Word) : Nibble := w.extractLsb' 4 4

/-- `imm = w[3:0]` (R71, R73). -/
def immField (w : Word) : Nibble := w.extractLsb' 0 4

/-- `hi ‖ lo`, with `hi` in bits 7..4 (R7). -/
def joinNibbles (hi lo : Nibble) : Word := hi ++ lo

/-- Why a word is no instruction. -/
inductive DecodeError where
  /-- The opcode is not in the map of R75 (R76). The cycle turns this into `Fatal(InvalidOpcode)`. -/
  | invalidOpcode (op : Nibble)
deriving DecidableEq, Repr

/-- The opcode map (R75): behaviour is selected from `op` alone (R72). -/
def decodeFields (op imm : Nibble) : Except DecodeError Instr :=
  match op with
  | 0b0000#4 => .ok .nop
  | 0b0001#4 => .ok (.lda imm)
  | 0b0010#4 => .ok (.add imm)
  | 0b0011#4 => .ok (.sub imm)
  | 0b0100#4 => .ok (.sta imm)
  | 0b0101#4 => .ok (.ldi imm)
  | 0b0110#4 => .ok (.jmp imm)
  | 0b0111#4 => .ok (.jc imm)
  | 0b1000#4 => .ok (.jz imm)
  | 0b1001#4 => .ok .debug
  | 0b1110#4 => .ok .out
  | 0b1111#4 => .ok .hlt
  | other => .error (.invalidOpcode other)

/-- The decoder: total on any eight-bit word. Every instruction is one cell (R70, R79). -/
def decodeWord (w : Word) : Except DecodeError Instr :=
  decodeFields (opField w) (immField w)

/-- The opcode of each instruction (R75). -/
def Instr.opcode : Instr → Nibble
  | .nop => 0b0000#4
  | .lda _ => 0b0001#4
  | .add _ => 0b0010#4
  | .sub _ => 0b0011#4
  | .sta _ => 0b0100#4
  | .ldi _ => 0b0101#4
  | .jmp _ => 0b0110#4
  | .jc _ => 0b0111#4
  | .jz _ => 0b1000#4
  | .debug => 0b1001#4
  | .out => 0b1110#4
  | .hlt => 0b1111#4

/-- The operand field of each instruction; the don't-care bits are written `0000` (R80). -/
def Instr.operand : Instr → Nibble
  | .nop => 0b0000#4
  | .lda imm => imm
  | .add imm => imm
  | .sub imm => imm
  | .sta imm => imm
  | .ldi imm => imm
  | .jmp imm => imm
  | .jc imm => imm
  | .jz imm => imm
  | .debug => 0b0000#4
  | .out => 0b0000#4
  | .hlt => 0b0000#4

/-- The encoder: the one word of an instruction (R71, R75, R80). -/
def encode (i : Instr) : Word := joinNibbles i.opcode i.operand

/-- The instruction the decoder reads from a word of the opcode table: the low `nbits` bits of `w`, of
which an instruction of this core has eight. -/
def decodeTableWord (nbits w : Nat) : Option Instr :=
  match decodeWord (BitVec.ofNat 8 (w % 2 ^ nbits)) with
  | .ok i => some i
  | .error _ => none

end Sys2Proof
end

