-- ==== Sys2Proof/Machine/Operands.lean ====
section
/-! DEFINITION. The three ways to name an operand (41_data_transfer.md R114): an immediate value, an
absolute cell, and LDA's fixed cell. -/

namespace Sys2Proof.Machine

/-- Immediate: `zext_4` of the field, in 0..15 (R8, R73; ADD, SUB, LDI). -/
def immValue (imm : Nibble) : Int := (imm.toNat : Int)

/-- Absolute cell: the address or jump target is `imm` itself (R73, R153; STA, JMP, JC, JZ). -/
def cellAddress (imm : Nibble) : Nat := imm.toNat

/-- `LdaAddr(op, imm)` (R111): the one operation that selects LDA's cell. -/
def ldaAddr (sel : LdaAddrSelect) (op imm : Nibble) : Nat :=
  match sel with
  | .opcodeField => op.toNat
  | .operandField => imm.toNat

end Sys2Proof.Machine
end

