-- ==== Sys2Proof/Machine/Ops.lean ====
section
/-! DEFINITION. The named operations over memory and registers, and the one way an exception is taken:
`raise Fatal(r)` (20_memory.md R52, R53; 00_scope.md R9, R11; 60_exceptions.md R190). The spec has no
return from an exception (R199). -/

namespace Sys2Proof.Machine

/-- The word listed at `a`, if one is. -/
def lookupWord (a : Nat) : List Host.Cell → Option Word
  | [] => none
  | (b, v) :: rest => if a = b then some v else lookupWord a rest

/-- List the word `w` at `a`, in place of the one listed there before. -/
def insertWord (a : Nat) (w : Word) : List Host.Cell → List Host.Cell
  | [] => [(a, w)]
  | (b, v) :: rest =>
    if a < b then (a, w) :: (b, v) :: rest
    else if a = b then (a, w) :: rest
    else (b, v) :: insertWord a w rest

/-- The canonical form of a memory: in each list addresses strictly rise and lie in 0..15, and no cell
is in both. A cell is never listed as `Empty`, which is what an unlisted one reads as. -/
abbrev Memory.wf (m : Memory) : Prop :=
  (m.words.map Prod.fst).Pairwise (· < ·) ∧
  (∀ c ∈ m.words, c.1 < Config.memCells) ∧
  m.invalid.Pairwise (· < ·) ∧
  (∀ a ∈ m.invalid, a < Config.memCells) ∧
  (∀ a ∈ m.invalid, a ∉ m.words.map Prod.fst)

/-- `MemRead(addr, 1)` (R52): an address of 16 or more reads `Empty`. -/
def Memory.read (m : Memory) (a : Nat) : CellValue :=
  if a < Config.memCells then
    if a ∈ m.invalid then .invalid
    else
      match lookupWord a m.words with
      | some w => .word w
      | none => .empty
  else .empty

/-- `MemWrite(addr, 1, w)` (R53): the cell becomes `Word w`, whatever it held before. The address is
four bits wide, so it is always a cell. -/
def Memory.write (m : Memory) (a : Nibble) (w : Word) : Memory where
  words := insertWord a.toNat w m.words
  invalid := m.invalid.filter (fun b => b != a.toNat)

/-- `emit E`: append the event to `log` (R9, R35). -/
def State.emit (s : State) (e : Event) : State := { s with log := s.log ++ [e] }

/-- `if DBG then emit E`: the debug traces (R205). -/
def State.trace (s : State) (e : Event) : State := if s.dbg then s.emit e else s

/-- `A <- v` (R9). -/
def State.setAcc (s : State) (v : Int) : State := { s with acc := .value v }

/-- ADD and SUB write both flags (R130, R133). -/
def State.setFlags (s : State) (cf zf : Bool) : State := { s with cf := cf, zf := zf }

/-- `pc <- t; jumped <- true`: a taken jump (R150). -/
def State.jumpTo (s : State) (t : Nat) : State := { s with pc := t, jumped := true }

/-- `MemWrite` on the core's memory (R53). -/
def State.store (s : State) (a : Nibble) (w : Word) : State := { s with mem := s.mem.write a w }

/-- `raise Fatal(r)` (R190): err, then the report with the current pc, then HALT. What follows in the
execute stage is abandoned, because a meaning that raises answers with this state. -/
def State.raiseFatal (s : State) (r : Cause) : State :=
  { s with err := some r, log := s.log ++ [.errorReport s.pc r], halt := true }

/-- `A` as an expression (R11): a read of A with no value is `Fatal(UnsetAccumulator)`; otherwise go on
with the value. -/
def State.withAcc (s : State) (go : Int → State) : State :=
  match s.acc with
  | .unset => s.raiseFatal .unsetAccumulator
  | .value a => go a

/-- `low4(a) = a mod 16` as a four-bit value (R112, log 12). -/
def low4 (a : Int) : Nibble := BitVec.ofNat 4 (a % 16).toNat

/-- `AddCarryTrunc(s)` (R131): the parameter's value on 16..30, the free value outside (log 9). -/
def addCarryTrunc (p : Params) (sum : Int) : Int :=
  match p.addCarryTrunc[(sum - 16).toNat]? with
  | some v => if 16 ≤ sum then (v.toNat : Int) else ((Config.carryTruncBeyond sum).toNat : Int)
  | none => ((Config.carryTruncBeyond sum).toNat : Int)

/-- Whether `ACC_BOUND` admits a SUB result: under `Signed W` it must not be below `-2^(W-1)` (R133). -/
def accInRange (b : AccBound) (d : Int) : Bool :=
  match b with
  | .unbounded => true
  | .signed w => decide (-(2 ^ (w - 1)) ≤ d)

/-- `pc + 1` under `PC_BOUND` (R100). -/
def nextPc (b : PcBound) (pc : Nat) : Nat :=
  match b with
  | .unbounded => pc + 1
  | .wrap w => (pc + 1) % 2 ^ w

end Sys2Proof.Machine
end

