-- ==== Sys2Proof/Machine/Arithmetic.lean ====
section
/-! DEFINITION. ADD and SUB (42_arithmetic.md): the execute stage of each. -/

namespace Sys2Proof.Machine

/-- What ADD stores for the sum `s` (R130): the sum, or its truncation on the carry path. -/
def addResult (p : Params) (sum : Int) : Int :=
  if addCarry sum then addCarryTrunc p sum else sum

/-- ADD (R130, R132): both flags from the sum before truncation, the trace with the old A, then A. -/
def execAdd (imm : Nibble) (s : State) : Host.Outcome State Fault Refusal :=
  .next (s.withAcc fun a =>
    let sum := a + immValue imm
    ((s.setFlags (addCarry sum) (addZero sum)).trace (.traceAdd a imm)).setAcc
      (addResult s.params sum))

/-- SUB (R133, R134): no truncation; under `Signed W` a result out of range is fatal before any
write. -/
def execSub (imm : Nibble) (s : State) : Host.Outcome State Fault Refusal :=
  .next (s.withAcc fun a =>
    let diff := a - immValue imm
    if accInRange s.params.accBound diff then
      ((s.setFlags (subBorrow diff) (subZero diff)).trace (.traceSub a imm)).setAcc diff
    else s.raiseFatal .accumulatorRange)

end Sys2Proof.Machine
end

