-- ==== Sys2Proof/Machine/Control.lean ====
section
/-! DEFINITION. JMP, JC and JZ (43_control.md): the execute stage of each. A jump not taken writes
nothing. -/

namespace Sys2Proof.Machine

/-- A jump to `imm` when `taken` holds. -/
def jumpIf (taken : Bool) (imm : Nibble) (s : State) : State :=
  if taken then s.jumpTo (cellAddress imm) else s

/-- JMP (R150). -/
def execJmp (imm : Nibble) (s : State) : Host.Outcome State Fault Refusal :=
  .next (jumpIf true imm s)

/-- JC (R151): reads CF and does not clear it. -/
def execJc (imm : Nibble) (s : State) : Host.Outcome State Fault Refusal :=
  .next (jumpIf s.cf imm s)

/-- JZ (R152): reads ZF and does not clear it. -/
def execJz (imm : Nibble) (s : State) : Host.Outcome State Fault Refusal :=
  .next (jumpIf s.zf imm s)

end Sys2Proof.Machine
end

