-- ==== Sys2Proof/Machine/DataTransfer.lean ====
section
/-! DEFINITION. LDA, STA and LDI (41_data_transfer.md): the execute stage of each. -/

namespace Sys2Proof.Machine

/-- What LDA does with the cell it reads (R110, R195). -/
def loadHighNibble (s : State) (c : CellValue) : State :=
  match c with
  | .empty => s.raiseFatal .ldaSourceEmpty
  | .invalid => s.raiseFatal .ldaSourceInvalid
  | .word v => s.setAcc (opField v).toNat

/-- LDA (R110, R111): A gets the high four bits of the selected cell. -/
def execLda (imm : Nibble) (s : State) : Host.Outcome State Fault Refusal :=
  .next (loadHighNibble s
    (s.mem.read (ldaAddr s.params.ldaAddrSelect (Instr.opcode (.lda imm)) imm)))

/-- STA (R112): the cell `imm` becomes `0000 ‖ low4(A)`. -/
def execSta (imm : Nibble) (s : State) : Host.Outcome State Fault Refusal :=
  .next (s.withAcc fun a => s.store imm (joinNibbles 0b0000#4 (low4 a)))

/-- LDI (R113): A gets the immediate, with a trace in debug mode. -/
def execLdi (imm : Nibble) (s : State) : Host.Outcome State Fault Refusal :=
  .next ((s.setAcc (immValue imm)).trace (.traceLdi imm))

end Sys2Proof.Machine
end

