-- ==== Sys2Proof/Machine/System.lean ====
section
/-! DEFINITION. NOP, DEBUG, OUT and HLT (44_system.md): the execute stage of each. -/

namespace Sys2Proof.Machine

/-- NOP (R170): no effect. -/
def execNop (s : State) : Host.Outcome State Fault Refusal :=
  .next s

/-- DEBUG (R171): DBG flips, and its new value is reported both ways. -/
def execDebug (s : State) : Host.Outcome State Fault Refusal :=
  .next (({ s with dbg := !s.dbg } : State).emit (.debugState (!s.dbg)))

/-- OUT (R172): A is reported, whatever CF and DBG hold. -/
def execOut (s : State) : Host.Outcome State Fault Refusal :=
  .next (s.withAcc fun a => s.emit (.out a))

/-- HLT (R173): the halt flag is set; the halt check of the same cycle ends the run. -/
def execHlt (s : State) : Host.Outcome State Fault Refusal :=
  .next { s with halt := true }

end Sys2Proof.Machine
end

