-- ==== Sys2Proof/Machine/Dispatch.lean ====
section
/-! DEFINITION. The dispatch of 40_cycle.md R95: the execute stage of every instruction. -/

namespace Sys2Proof.Machine

def exec (i : Instr) (s : State) : Host.Outcome State Fault Refusal :=
  match i with
  | .nop => Sys2Proof.Machine.execNop s
  | .lda imm => Sys2Proof.Machine.execLda imm s
  | .add imm => Sys2Proof.Machine.execAdd imm s
  | .sub imm => Sys2Proof.Machine.execSub imm s
  | .sta imm => Sys2Proof.Machine.execSta imm s
  | .ldi imm => Sys2Proof.Machine.execLdi imm s
  | .jmp imm => Sys2Proof.Machine.execJmp imm s
  | .jc imm => Sys2Proof.Machine.execJc imm s
  | .jz imm => Sys2Proof.Machine.execJz imm s
  | .debug => Sys2Proof.Machine.execDebug s
  | .out => Sys2Proof.Machine.execOut s
  | .hlt => Sys2Proof.Machine.execHlt s

end Sys2Proof.Machine
end

