-- ==== Sys2Proof/Machine/Cycle.lean ====
section
/-! DEFINITION. The phases of one cycle around the execute stage (40_cycle.md R91 to R103): the start of
the run and of the cycle, the fetch, and the post-cycle phase. -/

namespace Sys2Proof.Machine

/-- `emit Start` before the first cycle (R103, R220, log 4). -/
def startRun (s : State) : State :=
  if s.started then s else { s.emit .start with started := true }

/-- What precedes the fetch: the start of the run where this is its first cycle, and `jumped <- false`
(R91, R101). -/
def beginCycle (s : State) : State := { startRun s with jumped := false }

/-- A fetch of an `Empty` cell (R93): an implicit signal that turns debug mode on, not a halt. -/
def emptyFetch (s : State) : State := { s with dbg := true }

/-- Decode and execute the word fetched (R95); an opcode outside the map is fatal (R192). -/
def executeWord (w : Word) (s : State) : Host.Outcome State Fault Refusal :=
  match decodeWord w with
  | .ok i => exec i s
  | .error (.invalidOpcode _) => .next (s.raiseFatal .invalidOpcode)

/-- Fetch at `pc`, then decode and execute (R92 to R95). -/
def fetchExecute (s : State) : Host.Outcome State Fault Refusal :=
  match s.mem.read s.pc with
  | .empty => .next (emptyFetch s)
  | .invalid => .next (s.raiseFatal .malformedWord)
  | .word w => executeWord w s

/-- The debug pause (R96). -/
def pausePhase (s : State) : State := if s.dbg then s.emit .pause else s

/-- The flag warnings (R97, R98): at most one, CF first; the flag warned about is cleared. -/
def warnPhase (s : State) : State :=
  if s.dbg && s.cf then { s.emit (.warnCF s.pc) with cf := false }
  else if s.dbg && s.zf then { s.emit (.warnZF s.pc) with zf := false }
  else s

/-- The status the halt check sets (R99). -/
def endStatus (e : Option Cause) : Status :=
  match e with
  | none => .halted
  | some _ => .errored

/-- The halt check, else the PC advance (R99, R100). -/
def endPhase (s : State) : State :=
  if s.halt then { s.emit .haltNotice with status := endStatus s.err }
  else if s.jumped then s
  else { s with pc := nextPc s.params.pcBound s.pc }

/-- The post-cycle phase, which always runs (R91, R96 to R100). -/
def postCycle (s : State) : State := endPhase (warnPhase (pausePhase s))

/-- The post-cycle phase after the execute stage. -/
def finishCycle (o : Host.Outcome State Fault Refusal) : Host.Outcome State Fault Refusal :=
  match o with
  | .next s => .next (postCycle s)
  | .fault r => .fault r
  | .refused r => .refused r

/-- One cycle, in full (R101). -/
def runCycle (s : State) : Host.Outcome State Fault Refusal :=
  finishCycle (fetchExecute (beginCycle s))

/-- The cell that a program placed for the next fetch goes to: the fetched cell itself, or cell 0 where
`pc` is past the array. Used by `State.withFetchWord` only (log 7). -/
def fetchCell (s : State) : Nibble :=
  if s.pc < Config.memCells then BitVec.ofNat 4 s.pc else 0#4

end Sys2Proof.Machine
end

