-- ==== Sys2Proof/Machine/Step.lean ====
section
/-! DEFINITION. One step: one whole cycle of the loop while the status is `Running` (00_scope.md R5,
40_cycle.md R101, R102). -/

namespace Sys2Proof.Machine

/-- One step (R101). A terminal state has no next cycle (R102, log 5). -/
def step (s : State) : Host.Outcome State Fault Refusal :=
  match s.status with
  | .running => runCycle s
  | .halted => .fault .halted
  | .errored => .fault .errored

/-- `s` with a word of the opcode table in the cell that the next step fetches (log 7). The loader puts
it there; a terminal status or a `pc` past the array, where nothing would be fetched, is set so that
the next step runs it. -/
def State.withFetchWord (s : State) (nbits w : Nat) : State :=
  { s with
    mem := s.mem.write (fetchCell s) (BitVec.ofNat 8 (w % 2 ^ nbits))
    pc := (fetchCell s).toNat
    status := .running }

end Sys2Proof.Machine
end

