-- ==== Sys2Proof/Machine/Loader.lean ====
section
/-! DEFINITION. The contract of the loader: from program lines to the memory image the core consumes
(20_memory.md R66, 30_encoding.md R82, 60_exceptions.md R207). -/

namespace Sys2Proof.Machine

/-- One program line, without its terminator, which is no symbol (D10). -/
abbrev Line := List Char

/-- A symbol's bit: the characters for binary 0 and 1, and no other (R82). -/
def symbolBit (c : Char) : Option Bool :=
  if c = '0' then some false else if c = '1' then some true else none

/-- The number whose binary digits are `bs`, the first one highest. -/
def bitsValue (bs : List Bool) : Nat := bs.foldl (fun n b => 2 * n + b.toNat) 0

/-- The word of a line: its first eight symbols, symbol 1 as bit 7; `none` where they are not eight
symbols `0` or `1`, so that the cell becomes `Invalid` (R66, D10, D12). -/
def lineWord (l : Line) : Option Word :=
  if (l.take Config.wordBits).length = Config.wordBits then
    ((l.take Config.wordBits).mapM symbolBit).map fun bs => BitVec.ofNat 8 (bitsValue bs)
  else none

/-- Fill the cells from `k` on, one line each (R66). -/
def fillFrom (k : Nat) (ls : List Line) : Memory :=
  match ls with
  | [] => Memory.blank
  | l :: rest =>
    let m := fillFrom (k + 1) rest
    match lineWord l with
    | some w => { m with words := (k, w) :: m.words }
    | none => { m with invalid := k :: m.invalid }

/-- What the loader is given. -/
inductive ProgramSource where
  /-- The source is missing or cannot be opened. -/
  | unreadable
  | lines (ls : List Line)
deriving DecidableEq, Repr

/-- What the loader answers (R66, R207). -/
inductive LoadResult where
  /-- LoadError: the core never starts. -/
  | loadError
  | loaded (image : Memory)
deriving DecidableEq, Repr

/-- The loader (R66): line `i` fills cell `i`, lines beyond the sixteenth are ignored, and no line at
all is a LoadError. -/
def load (src : ProgramSource) : LoadResult :=
  match src with
  | .unreadable => .loadError
  | .lines [] => .loadError
  | .lines ls => .loaded (fillFrom 0 (ls.take Config.memCells))

/-- Steps 1 and 2 of R220: a successful load and the reset values; `none` where there is no run (R207,
D30). -/
def boot (p : Params) (src : ProgramSource) : Option State :=
  match load src with
  | .loadError => none
  | .loaded image => some (State.resetWith p image)

end Sys2Proof.Machine
end

