-- ==== Sys2Proof/Machine/Outcome.lean ====
section
/-! DEFINITION. What the core gives the host: the outcome of an ended run (40_cycle.md R104), the numeric
cause codes (60_exceptions.md R191) and the exit code's class (70_reset_and_hazards.md R229). -/

namespace Sys2Proof.Machine

/-- The outcome of an ended run (R104). -/
structure RunOutcome where
  status : Status
  err : Option Cause
  pc : Nat
  acc : Acc
  cf : Bool
  zf : Bool
  dbg : Bool
  mem : Memory
  log : List Event
deriving DecidableEq, Repr

/-- The outcome of a state: a state that is still `Running` has none (R104). -/
def runOutcome (s : State) : Option RunOutcome :=
  match s.status with
  | .running => none
  | .halted | .errored =>
    some { status := s.status, err := s.err, pc := s.pc, acc := s.acc, cf := s.cf, zf := s.zf,
           dbg := s.dbg, mem := s.mem, log := s.log }

/-- The cause codes of R191 (D15: labels only). -/
def causeCode (r : Cause) : Nat :=
  match r with
  | .invalidOpcode => 1
  | .malformedWord => 2
  | .unsetAccumulator => 3
  | .ldaSourceEmpty => 4
  | .ldaSourceInvalid => 5
  | .accumulatorRange => 6

/-- The host's exit code, as far as the spec fixes it: zero or not zero (R229, D24, log 21). -/
inductive ExitClass where
  | zero
  | nonZero
deriving DecidableEq, Repr

/-- The exit class at the end of a run; none while the core runs (R229). -/
def exitClass (st : Status) : Option ExitClass :=
  match st with
  | .running => none
  | .halted => some .zero
  | .errored => some .nonZero

/-- The exit class of a load that fails (R229). -/
def loadExitClass (r : LoadResult) : Option ExitClass :=
  match r with
  | .loadError => some .nonZero
  | .loaded _ => none

end Sys2Proof.Machine
end

