-- ==== Sys2Proof/WellFormed.lean ====
section
/-! DEFINITION. What must hold of the data a model of this core is given. An `Instr` needs no check: its
operands are four-bit fields, so each of its terms is the meaning of some word. What does need one is an
opcode field (R76) and the two widths among the parameters (R6, D3, D11). -/

namespace Sys2Proof

/-- The opcode is in the map of R75; the four others are illegal (R76). -/
def opcodeMapped (op : Nibble) : Bool :=
  !(op == 0b1010#4 || op == 0b1011#4 || op == 0b1100#4 || op == 0b1101#4)

/-- `Signed W` asks for `W ≥ 5`, so that 0..15 fit (D3). -/
def AccBound.wellFormed : AccBound → Bool
  | .unbounded => true
  | .signed w => decide (5 ≤ w)

/-- `Wrap W` asks for `W ≥ 4`, so that every cell has an address (R100, D11). -/
def PcBound.wellFormed : PcBound → Bool
  | .unbounded => true
  | .wrap w => decide (4 ≤ w)

/-- Parameters within the ranges that R6 and the decisions give. -/
def Params.wellFormed (p : Params) : Bool :=
  p.accBound.wellFormed && p.pcBound.wellFormed

end Sys2Proof
end

