-- ==== Sys2Proof/Safety.lean ====
section
/-! DEFINITION. What counts as a state of the core that the spec admits, and how a run ends, in the terms
the statements use. -/

namespace Sys2Proof.Machine

/-- What A may hold (R21, R23): no value only under `A_RESET = Unset`; never above 15; under `Signed W`
not below `-2^(W-1)`. -/
def accAdmitted (p : Params) (a : Acc) : Prop :=
  match a with
  | .unset => p.aReset = .unset
  | .value v => v ≤ 15 ∧ accInRange p.accBound v = true

/-- What the PC may hold (R25, R100): under `Wrap W` it stays below `2^W`. -/
def pcAdmitted (b : PcBound) (pc : Nat) : Prop :=
  match b with
  | .unbounded => True
  | .wrap w => pc < 2 ^ w

/-- HALT and err as the status says they are between cycles (R31 to R33, R99). -/
def statusAdmitted (st : Status) (halt : Bool) (err : Option Cause) : Prop :=
  match st with
  | .running => halt = false ∧ err = none
  | .halted => halt = true ∧ err = none
  | .errored => halt = true ∧ err ≠ none

/-- The log between cycles (R35, R103, R104): empty until the run starts, then `Start` first, and
`HaltNotice` last once the run has ended. -/
def logAdmitted (s : State) : Prop :=
  (s.started = false → s.log = [] ∧ s.status = .running) ∧
  (s.started = true → s.log.head? = some .start) ∧
  (s.status ≠ .running → s.log.getLast? = some .haltNotice)

/-- A state the spec admits between two cycles. -/
structure State.Inv (s : State) : Prop where
  params_ok : s.params.wellFormed = true
  mem_ok : s.mem.wf
  acc_ok : accAdmitted s.params s.acc
  pc_ok : pcAdmitted s.params.pcBound s.pc
  status_ok : statusAdmitted s.status s.halt s.err
  log_ok : logAdmitted s

/-- At most one of the two flags is set (R135). -/
def flagsExclusive (s : State) : Prop := ¬ (s.cf = true ∧ s.zf = true)

/-- `k` steps from `s` all have a next state, and the last is `t`. -/
def Reaches (k : Nat) (s t : State) : Prop := Sys2Proof.core.run k s = .next t

/-- A run ends in `t` (R104). -/
def EndsIn (s t : State) : Prop := ∃ k, Reaches k s t ∧ t.status ≠ .running

/-- A run never ends (R104, R227). -/
def NeverEnds (s : State) : Prop := ∀ k, ∃ t, Reaches k s t ∧ t.status = .running

/-- A run ends cleanly: `Halted`, not `Errored` (R99, R229). -/
def EndsCleanly (s : State) : Prop := ∃ t, EndsIn s t ∧ t.status = .halted

/-- The target of the jump that the cycle from `s` takes, if it takes one: a JMP, or a JC or JZ whose
flag is set (R150 to R152). -/
def takenTarget (s : State) : Option Nat :=
  match s.mem.read s.pc with
  | .empty | .invalid => none
  | .word w =>
    match decodeWord w with
    | .ok (.jmp imm) => some imm.toNat
    | .ok (.jc imm) => if s.cf then some imm.toNat else none
    | .ok (.jz imm) => if s.zf then some imm.toNat else none
    | _ => none

/-- The events of the pause and the warnings that the post-cycle phase emits from `s` (R96 to R98). -/
def postEvents (s : State) : List Event :=
  (if s.dbg then [.pause] else []) ++
  (if s.dbg && s.cf then [.warnCF s.pc] else if s.dbg && s.zf then [.warnZF s.pc] else [])

/-- Two cells that no instruction can tell apart (I5): the same, or two data words (R12). -/
def sameCell (x y : CellValue) : Prop :=
  x = y ∨ ∃ v w, x = .word v ∧ y = .word w ∧ opField v = 0b0000#4 ∧ opField w = 0b0000#4

/-- Two states alike but for the low bits of their data words (I5). -/
def sameButData (s t : State) : Prop :=
  t = { s with mem := t.mem } ∧ ∀ a, sameCell (s.mem.read a) (t.mem.read a)

end Sys2Proof.Machine
end

