-- ==== Sys2Proof/Certificates/Slice0/Obligations.lean ====
section
/-! DEFINITION. The statements about the core, for the provers. `R<n>`, `D<n>`, `I<n>` are the spec's
numbers. A docstring names the decision of the spec or the log entry that a statement rests on, where it
rests on one. -/

open Sys2Proof Sys2Proof.Machine

/-! ### Encoding -/

/-- R75: each of the sixteen opcodes decodes by the map, whatever the operand field holds. -/
def Obligations.DecoderFollowsTheOpcodeMap : Prop :=
  ∀ w : Word,
    (opField w = 0b0000#4 → decodeWord w = .ok .nop) ∧
    (opField w = 0b0001#4 → decodeWord w = .ok (.lda (immField w))) ∧
    (opField w = 0b0010#4 → decodeWord w = .ok (.add (immField w))) ∧
    (opField w = 0b0011#4 → decodeWord w = .ok (.sub (immField w))) ∧
    (opField w = 0b0100#4 → decodeWord w = .ok (.sta (immField w))) ∧
    (opField w = 0b0101#4 → decodeWord w = .ok (.ldi (immField w))) ∧
    (opField w = 0b0110#4 → decodeWord w = .ok (.jmp (immField w))) ∧
    (opField w = 0b0111#4 → decodeWord w = .ok (.jc (immField w))) ∧
    (opField w = 0b1000#4 → decodeWord w = .ok (.jz (immField w))) ∧
    (opField w = 0b1001#4 → decodeWord w = .ok .debug) ∧
    (opField w = 0b1010#4 → decodeWord w = .error (.invalidOpcode 0b1010#4)) ∧
    (opField w = 0b1011#4 → decodeWord w = .error (.invalidOpcode 0b1011#4)) ∧
    (opField w = 0b1100#4 → decodeWord w = .error (.invalidOpcode 0b1100#4)) ∧
    (opField w = 0b1101#4 → decodeWord w = .error (.invalidOpcode 0b1101#4)) ∧
    (opField w = 0b1110#4 → decodeWord w = .ok .out) ∧
    (opField w = 0b1111#4 → decodeWord w = .ok .hlt)

/-- One word of each family, written out bit by bit from the table of 95_test_vectors.md Part 2. -/
def Obligations.SampleWordsDecode : Prop :=
  decodeWord 0b00010000#8 = .ok (.lda 0) ∧
  decodeWord 0b01000101#8 = .ok (.sta 5) ∧
  decodeWord 0b00100011#8 = .ok (.add 3) ∧
  decodeWord 0b01101100#8 = .ok (.jmp 12) ∧
  decodeWord 0b11100101#8 = .ok .out ∧
  decodeWord 0b10110111#8 = .error (.invalidOpcode 0b1011#4)

/-- R71, R75: decoding an encoded instruction gives it back, for every operand. -/
def Obligations.DecodeOfEncodeIsIdentity : Prop :=
  ∀ i : Instr, decodeWord (encode i) = .ok i

/-- The other direction: a word that decodes is its instruction's word, but for the don't-care bits of
NOP, DEBUG, OUT and HLT, which the encoder writes as zeros (R77 with D23, R80 with D22). -/
def Obligations.EncodeRecoversTheWord : Prop :=
  ∀ (w : Word) (i : Instr), decodeWord w = .ok i →
    opField (encode i) = opField w ∧
    (i ∉ [Instr.nop, .debug, .out, .hlt] → encode i = w) ∧
    (i ∈ [Instr.nop, .debug, .out, .hlt] → immField (encode i) = 0b0000#4)

/-- R77 with the spec's decision D23 (log 16): bits 3..0 of NOP, DEBUG, OUT and HLT, and of LDA under
`OpcodeField`, change nothing. -/
def Obligations.UnusedOperandBitsAreIgnored : Prop :=
  ∀ w v : Word, opField w = opField v →
    (opField w ∈ [0b0000#4, 0b1001#4, 0b1110#4, 0b1111#4] → decodeWord w = decodeWord v) ∧
    (opField w = 0b0001#4 → ∃ x y, decodeWord w = .ok (.lda x) ∧ decodeWord v = .ok (.lda y) ∧
      ∀ s : State, s.params.ldaAddrSelect = .opcodeField → exec (.lda x) s = exec (.lda y) s)

/-! ### The execute stage of each instruction -/

/-- R170: NOP has no effect, in the execute stage and, outside debug mode, in any cycle of a run but for
the PC advance. (The cycle that starts a run also emits `Start`: `StartComesFirstAndOnce`.) -/
def Obligations.NopOnlyAdvancesThePc : Prop :=
  (∀ imm : Nibble, decodeWord (joinNibbles 0b0000#4 imm) = .ok .nop) ∧
  (∀ s : State, exec .nop s = .next s) ∧
  ∀ (s : State) (w : Word), s.status = .running → s.started = true → s.halt = false →
    s.dbg = false → s.params.pcBound = .unbounded → s.mem.read s.pc = .word w →
    opField w = 0b0000#4 →
    step s = .next { s with pc := s.pc + 1, jumped := false }

/-- R110, R111 (both values of `LDA_ADDR_SELECT`, D28): A gets bits 7..4 of the selected cell, and
nothing else changes. -/
def Obligations.LdaLoadsTheHighNibble : Prop :=
  ∀ (imm : Nibble) (s : State) (v : Word),
    (s.params.ldaAddrSelect = .opcodeField → s.mem.read 1 = .word v →
      exec (.lda imm) s = .next { s with acc := .value ((v.toNat / 16 : Nat) : Int) }) ∧
    (s.params.ldaAddrSelect = .operandField → s.mem.read imm.toNat = .word v →
      exec (.lda imm) s = .next { s with acc := .value ((v.toNat / 16 : Nat) : Int) })

/-- R195 with the spec's decision D9 (log 13): an LDA whose cell holds no word is fatal and does not
write A. -/
def Obligations.LdaWithoutAWordIsFatal : Prop :=
  ∀ (imm : Nibble) (s : State) (a : Nat),
    a = (match s.params.ldaAddrSelect with | .opcodeField => 1 | .operandField => imm.toNat) →
    (s.mem.read a = .empty → exec (.lda imm) s = .next { s with
      err := some .ldaSourceEmpty
      halt := true
      log := s.log ++ [.errorReport s.pc .ldaSourceEmpty] }) ∧
    (s.mem.read a = .invalid → exec (.lda imm) s = .next { s with
      err := some .ldaSourceInvalid
      halt := true
      log := s.log ++ [.errorReport s.pc .ldaSourceInvalid] })

/-- R112: STA leaves `A mod 16` with four zero bits above it in the cell `imm`, every other cell as it
was, and the rest of the state unchanged. For a negative A the value is the spec's decision D8
(log 12). -/
def Obligations.StaStoresTheLowNibble : Prop :=
  ∀ (imm : Nibble) (s : State) (a : Int), s.acc = .value a →
    ∃ t, exec (.sta imm) s = .next t ∧
      (∃ w : Word, t.mem.read imm.toNat = .word w ∧ opField w = 0b0000#4 ∧
        (w.toNat : Int) = a % 16) ∧
      (∀ b, b ≠ imm.toNat → t.mem.read b = s.mem.read b) ∧
      t = { s with mem := t.mem }

/-- R113: LDI loads its immediate, keeps both flags, and traces in debug mode only. -/
def Obligations.LdiLoadsTheImmediate : Prop :=
  (∀ imm : Nibble, decodeWord (joinNibbles 0b0101#4 imm) = .ok (.ldi imm)) ∧
  ∀ (imm : Nibble) (s : State), exec (.ldi imm) s = .next { s with
    acc := .value (imm.toNat : Int)
    log := if s.dbg then s.log ++ [.traceLdi imm] else s.log }

/-- R130, for every value of `ADD_CARRY_TRUNC` (D7, log 8): both flags come from the sum before
truncation; up to 15 the sum is stored, and `16 + k` stores the parameter's entry `k`. -/
def Obligations.AddStoresTheSumAndFlags : Prop :=
  ∀ (imm : Nibble) (s : State) (a : Int), s.acc = .value a →
    (a + imm.toNat ≤ 15 → exec (.add imm) s = .next { s with
      acc := .value (a + imm.toNat)
      cf := false
      zf := decide (a + imm.toNat = 0)
      log := if s.dbg then s.log ++ [.traceAdd a imm] else s.log }) ∧
    (∀ k : Fin 15, a + imm.toNat = 16 + (k.val : Int) → exec (.add imm) s = .next { s with
      acc := .value (s.params.addCarryTrunc[k].toNat : Int)
      cf := true
      zf := false
      log := if s.dbg then s.log ++ [.traceAdd a imm] else s.log })

/-- R131 under the default of `ADD_CARRY_TRUNC`, which is the spec's decision D7 (log 8): the carry path
stores `s - 16`. -/
def Obligations.AddCarryPathDropsTheLeadingBit : Prop :=
  ∀ (imm : Nibble) (s : State) (a : Int), s.params.addCarryTrunc = Config.dropLeadingBit →
    s.acc = .value a → 16 ≤ a + imm.toNat → a ≤ 15 →
    ∃ t, exec (.add imm) s = .next t ∧ t.acc = .value (a + imm.toNat - 16) ∧ t.cf = true ∧
      t.zf = false

/-- R132: in debug mode ADD emits exactly one trace, with A before the ADD, ahead of every event of the
post-cycle phase; outside debug mode it emits nothing. -/
def Obligations.AddTracesBeforeThePostCyclePhase : Prop :=
  ∀ (imm : Nibble) (s : State) (a : Int), s.acc = .value a →
    (∃ u, exec (.add imm) s = .next u ∧
      u.log = s.log ++ (if s.dbg then [.traceAdd a imm] else [])) ∧
    ∀ w : Word, s.status = .running → s.started = true → s.mem.read s.pc = .word w →
      decodeWord w = .ok (.add imm) →
      ∃ t post, step s = .next t ∧
        t.log = s.log ++ (if s.dbg then [.traceAdd a imm] else []) ++ post ∧
        ∀ e ∈ post, e = .pause ∨ e = .warnCF s.pc ∨ e = .warnZF s.pc ∨ e = .haltNotice

/-- R133, R134: SUB stores the signed difference without truncation, sets both flags from it and traces
in debug mode, wherever `ACC_BOUND` (D3) admits the difference. -/
def Obligations.SubStoresTheDifferenceAndFlags : Prop :=
  ∀ (imm : Nibble) (s : State) (a : Int), s.acc = .value a →
    (s.params.accBound = .unbounded ∨
      ∃ w, s.params.accBound = .signed w ∧ -(2 ^ (w - 1)) ≤ a - (imm.toNat : Int)) →
    exec (.sub imm) s = .next { s with
      acc := .value (a - imm.toNat)
      cf := decide (a - imm.toNat < 0)
      zf := decide (a - imm.toNat = 0)
      log := if s.dbg then s.log ++ [.traceSub a imm] else s.log }

/-- R133, R194 under the alternative `ACC_BOUND = Signed W` (D3): a SUB below `-2^(W-1)` is fatal before
any write. -/
def Obligations.SubBelowTheSignedRangeIsFatal : Prop :=
  ∀ (imm : Nibble) (s : State) (a : Int) (w : Nat), s.acc = .value a →
    s.params.accBound = .signed w → a - (imm.toNat : Int) < -(2 ^ (w - 1)) →
    exec (.sub imm) s = .next { s with
      err := some .accumulatorRange
      halt := true
      log := s.log ++ [.errorReport s.pc .accumulatorRange] }

/-- R11, R194 with the spec's decision D4 (log 2): ADD, SUB, STA and OUT are fatal while A holds no
value, before they write anything. -/
def Obligations.ReadingTheUnsetAccumulatorIsFatal : Prop :=
  ∀ (i : Instr) (imm : Nibble) (s : State), s.acc = .unset →
    i ∈ [Instr.add imm, .sub imm, .sta imm, .out] →
    exec i s = .next { s with
      err := some .unsetAccumulator
      halt := true
      log := s.log ++ [.errorReport s.pc .unsetAccumulator] }

/-- R150: JMP writes the target and suppresses the advance; the next fetch is at the target, and a
warning of the same cycle carries it (the spec's decision D25, log 15). The cycle that starts a run
emits `Start` first (R103; log 4). -/
def Obligations.JmpGoesToItsTarget : Prop :=
  (∀ imm : Nibble, decodeWord (joinNibbles 0b0110#4 imm) = .ok (.jmp imm)) ∧
  (∀ (imm : Nibble) (s : State),
    exec (.jmp imm) s = .next { s with pc := imm.toNat, jumped := true }) ∧
  ∀ (imm : Nibble) (s : State) (w : Word), s.status = .running → s.halt = false →
    s.mem.read s.pc = .word w → decodeWord w = .ok (.jmp imm) →
    ∃ t, step s = .next t ∧ t.pc = imm.toNat ∧ t.status = .running ∧
      (s.dbg = true → s.cf = true →
        t.log = (if s.started then s.log else s.log ++ [.start]) ++
          [.pause, .warnCF imm.toNat])

/-- R151, R152: JC reads only CF and JZ only ZF; taken, each writes the target, and not taken it writes
nothing, so the PC advances. -/
def Obligations.ConditionalJumpsReadOneFlag : Prop :=
  ∀ (imm : Nibble) (s : State),
    exec (.jc imm) s =
      .next (if s.cf then { s with pc := imm.toNat, jumped := true } else s) ∧
    exec (.jz imm) s =
      .next (if s.zf then { s with pc := imm.toNat, jumped := true } else s) ∧
    ∀ w : Word, s.status = .running → s.halt = false → s.params.pcBound = .unbounded →
      s.mem.read s.pc = .word w →
      (decodeWord w = .ok (.jc imm) →
        ∃ t, step s = .next t ∧ t.pc = if s.cf then imm.toNat else s.pc + 1) ∧
      (decodeWord w = .ok (.jz imm) →
        ∃ t, step s = .next t ∧ t.pc = if s.zf then imm.toNat else s.pc + 1)

/-- R171 with the spec's decision D14 (log 15): DEBUG flips DBG and reports the new value both ways. -/
def Obligations.DebugTogglesAndReports : Prop :=
  ∀ s : State, exec .debug s = .next { s with
    dbg := !s.dbg
    log := s.log ++ [.debugState (!s.dbg)] }

/-- R172: OUT reports A and changes nothing else, whatever DBG holds; and CF has no effect on it
(I17). -/
def Obligations.OutReportsTheAccumulator : Prop :=
  (∀ (s : State) (a : Int), s.acc = .value a →
    exec .out s = .next { s with log := s.log ++ [.out a] }) ∧
  ∀ (s t : State) (b : Bool), exec .out s = .next t →
    exec .out { s with cf := b } = .next { t with cf := b }

/-- R173: HLT sets HALT; the same cycle still pauses and warns, ends the run with `Halted` at the HLT's
address, and no further cycle runs. -/
def Obligations.HltEndsTheRun : Prop :=
  (∀ imm : Nibble, decodeWord (joinNibbles 0b1111#4 imm) = .ok .hlt) ∧
  (∀ s : State, exec .hlt s = .next { s with halt := true }) ∧
  ∀ (s : State) (w : Word), s.status = .running → s.err = none → s.mem.read s.pc = .word w →
    opField w = 0b1111#4 →
    ∃ t, step s = .next t ∧ t.status = .halted ∧ t.halt = true ∧ t.pc = s.pc ∧
      (s.started = true → t.log = s.log ++ postEvents s ++ [.haltNotice]) ∧
      ∀ u, step t ≠ .next u

/-- What the execute stage leaves unchanged (R22, R28 to R31, R54): memory but for STA, A but for LDA,
ADD, SUB and LDI, the flags but for ADD and SUB, DBG but for DEBUG, pc but for the jumps, HALT but for
HLT; a fatal error changes err, HALT and the log alone. -/
def Obligations.ExecuteStageFrame : Prop :=
  ∀ (i : Instr) (s t : State), exec i s = .next t →
    t.status = s.status ∧ t.params = s.params ∧ t.started = s.started ∧
    ((∀ x, i ≠ .sta x) → ∀ a, t.mem.read a = s.mem.read a) ∧
    ((∀ x, i ≠ .lda x ∧ i ≠ .add x ∧ i ≠ .sub x ∧ i ≠ .ldi x) → t.acc = s.acc) ∧
    ((∀ x, i ≠ .add x ∧ i ≠ .sub x) → t.cf = s.cf ∧ t.zf = s.zf) ∧
    (i ≠ .debug → t.dbg = s.dbg) ∧
    ((∀ x, i ≠ .jmp x ∧ i ≠ .jc x ∧ i ≠ .jz x) → t.pc = s.pc ∧ t.jumped = s.jumped) ∧
    ((t.err = s.err ∧ (i ≠ .hlt → t.halt = s.halt)) ∨
      ∃ r, t = { s with
        err := some r
        halt := true
        log := s.log ++ [.errorReport s.pc r] })

/-! ### The cycle -/

/-- R91, R95, R101: while the core runs, a step whose fetched word decodes to `i` is the execute stage
of `i`, with `jumped` cleared and `Start` emitted in front of it where this is the first cycle (R103;
the bit `started` is the model's, log 4), and the post-cycle phase behind it. -/
def Obligations.StepRunsTheDecodedInstruction : Prop :=
  ∀ (s : State) (w : Word) (i : Instr), s.status = .running → s.mem.read s.pc = .word w →
    decodeWord w = .ok i →
    ∃ u, exec i { s with
        jumped := false
        started := true
        log := if s.started then s.log else s.log ++ [.start] } = .next u ∧
      step s = .next (postCycle u)

/-- R93: a fetch of an `Empty` cell sets DBG, advances the PC and executes nothing; it is no halt and no
error. What it leaves of the flags is R97 and R98. The cycle that starts a run emits `Start` first
(R103; log 4). -/
def Obligations.EmptyFetchTurnsDebugOn : Prop :=
  ∀ s : State, s.status = .running → s.halt = false → s.params.pcBound = .unbounded →
    s.mem.read s.pc = .empty →
    step s = .next { s with
      dbg := true
      pc := s.pc + 1
      cf := false
      zf := s.cf && s.zf
      jumped := false
      started := true
      log := (if s.started then s.log else s.log ++ [.start]) ++ [.pause] ++
        (if s.cf then [.warnCF s.pc] else if s.zf then [.warnZF s.pc] else []) }

/-- R192: an opcode outside the map ends the run in the same cycle, with the report of the failing pc;
no further cycle runs. -/
def Obligations.InvalidOpcodeEndsTheRun : Prop :=
  ∀ (s : State) (w : Word), s.status = .running → s.mem.read s.pc = .word w →
    opField w ∈ [0b1010#4, 0b1011#4, 0b1100#4, 0b1101#4] →
    ∃ t, step s = .next t ∧ t.status = .errored ∧ t.err = some .invalidOpcode ∧
      t.halt = true ∧ t.pc = s.pc ∧ t.acc = s.acc ∧ t.mem = s.mem ∧ t.dbg = s.dbg ∧
      (s.started = true → t.log = s.log ++ [.errorReport s.pc .invalidOpcode] ++
        postEvents s ++ [.haltNotice]) ∧
      ∀ u, step t ≠ .next u

/-- R94, R193 with the spec's decision D10 (log 14): a fetch of an `Invalid` cell is fatal. The cycle
that starts a run emits `Start` first (R103; that the first step does so is the model's choice,
log 4). -/
def Obligations.MalformedWordEndsTheRun : Prop :=
  ∀ s : State, s.status = .running → s.mem.read s.pc = .invalid →
    ∃ t, step s = .next t ∧ t.status = .errored ∧ t.err = some .malformedWord ∧
      t.pc = s.pc ∧ t.acc = s.acc ∧ t.mem = s.mem ∧
      t.log = (if s.started then s.log else s.log ++ [.start]) ++
        [.errorReport s.pc .malformedWord] ++ postEvents s ++ [.haltNotice]

/-- R96 to R98 (D25, D26): the post-cycle phase pauses in debug mode, warns about at most one flag, CF
first, and clears that flag only. -/
def Obligations.PostCyclePausesWarnsAndClears : Prop :=
  ∀ s : State,
    (postCycle s).cf = (s.cf && !s.dbg) ∧
    (postCycle s).zf = (s.zf && !(s.dbg && !s.cf)) ∧
    (postCycle s).log = s.log ++ postEvents s ++ (if s.halt then [.haltNotice] else []) ∧
    (postCycle s).mem = s.mem ∧ (postCycle s).acc = s.acc ∧ (postCycle s).dbg = s.dbg ∧
    (postCycle s).halt = s.halt ∧ (postCycle s).err = s.err

/-- R99, R100 (D11): the halt check sets the status and keeps the pc; otherwise a taken jump's target
stays, and any other cycle advances the pc, modulo `2^W` under `Wrap W`. -/
def Obligations.PostCycleHaltsOrAdvances : Prop :=
  ∀ s : State,
    (s.halt = true → (postCycle s).pc = s.pc ∧
      (postCycle s).status = if s.err = none then .halted else .errored) ∧
    (s.halt = false → (postCycle s).status = s.status) ∧
    (s.halt = false → s.jumped = true → (postCycle s).pc = s.pc) ∧
    (s.halt = false → s.jumped = false →
      (s.params.pcBound = .unbounded → (postCycle s).pc = s.pc + 1) ∧
      ∀ w, s.params.pcBound = .wrap w → (postCycle s).pc = (s.pc + 1) % 2 ^ w)

/-- R27: at the end of a cycle the PC is advanced by 1, or holds the target of the jump taken, or is not
changed because HALT is set; a cycle that fetched an `Empty` cell is no exception. -/
def Obligations.PcAdvancesUnlessJumpOrHalt : Prop :=
  ∀ s : State, s.status = .running → s.halt = false → s.params.pcBound = .unbounded →
    ∃ t, step s = .next t ∧
      (t.halt = true → t.pc = s.pc) ∧
      (t.halt = false →
        t.pc = match takenTarget s with | some target => target | none => s.pc + 1)

/-- R102: a terminal state has no next cycle. That `step` answers a fault there, and the two names, are
the model's choice (the second and third clauses; log 5). -/
def Obligations.TerminalStatesTakeNoStep : Prop :=
  ∀ s : State, s.status ≠ .running →
    (∀ t, step s ≠ .next t) ∧
    (s.status = .halted → step s = .fault .halted) ∧
    (s.status = .errored → step s = .fault .errored)

/-- R90, R101: a running core always completes its cycle, whatever the fetched cell, the instruction
and the rest of the state: no fault, no refusal. -/
def Obligations.RunningCoreAlwaysCompletesItsCycle : Prop :=
  ∀ s : State, s.status = .running → ∃ t, step s = .next t

/-- R92, R101 and log 7: the step after `withFetchWord` executes exactly the word placed. -/
def Obligations.PlacedWordIsTheNextExecuted : Prop :=
  ∀ (s : State) (w : Nat), w < 256 →
    step (s.withFetchWord 8 w) =
      finishCycle (executeWord (BitVec.ofNat 8 w) (beginCycle (s.withFetchWord 8 w)))

/-! ### Reset and the loader -/

/-- R37, R220: the reset values, from any parameters and any image; at the defaults A is unset and the
three flags are false (the spec's decisions D4, D5 and D6; logs 2 and 3). -/
def Obligations.ResetValues : Prop :=
  (∀ (p : Params) (m : Memory),
    let s := State.resetWith p m
    s.mem = m ∧ s.pc = 0 ∧ s.halt = false ∧ s.status = .running ∧ s.err = none ∧
    s.jumped = false ∧ s.log = [] ∧ s.cf = p.cfReset ∧ s.zf = p.zfReset ∧ s.dbg = p.dbgReset ∧
    (p.aReset = .unset → s.acc = .unset) ∧
    ∀ v, p.aReset = .value v → s.acc = .value (v.toNat : Int)) ∧
  State.reset = State.resetWith Params.standard Memory.blank ∧
  (∀ a, State.reset.mem.read a = .empty) ∧
  State.reset.acc = .unset ∧ State.reset.cf = false ∧ State.reset.zf = false ∧
  State.reset.dbg = false

/-- R103 (D13), R35: the first cycle's events are `Start` and then no other `Start`; every step only
appends to the log, `Start` in front where the run has not started, and no `Start` besides. That the
first step emits it, and the bit `started`, are the model's choice (log 4). -/
def Obligations.StartComesFirstAndOnce : Prop :=
  (∀ (p : Params) (m : Memory), ∃ t es, step (State.resetWith p m) = .next t ∧
    t.log = .start :: es ∧ .start ∉ es) ∧
  ∀ s t : State, step s = .next t →
    t.started = true ∧
    ∃ es, t.log = s.log ++ (if s.started then [] else [.start]) ++ es ∧ .start ∉ es

/-- R66 with the spec's decision D10 (log 14): line `i` fills cell `i`, a malformed line makes it
`Invalid`, a cell without a line is `Empty`, and lines beyond the sixteenth are ignored. -/
def Obligations.LoadedImageFollowsTheLines : Prop :=
  ∀ (ls : List Line) (m : Memory), load (.lines ls) = .loaded m → ∀ i, i < 16 →
    m.read i = match ls[i]? with
      | none => .empty
      | some l => match lineWord l with
        | some w => .word w
        | none => .invalid

/-- R66, R82 with the spec's decisions D10 and D12 (log 14): eight binary symbols are the bits of the
word, symbol 1 as bit 7, and symbols after the eighth are dropped; a line of fewer than eight symbols,
or with one of the first eight neither `0` nor `1`, gives no word. -/
def Obligations.LineSymbolsAreTheBits : Prop :=
  (∀ (b7 b6 b5 b4 b3 b2 b1 b0 : Bool) (rest : Line),
    ∃ w : Word,
      lineWord ([b7, b6, b5, b4, b3, b2, b1, b0].map (fun b => if b then '1' else '0') ++ rest) =
        some w ∧
      w.getMsbD 0 = b7 ∧ w.getMsbD 1 = b6 ∧ w.getMsbD 2 = b5 ∧ w.getMsbD 3 = b4 ∧
      w.getMsbD 4 = b3 ∧ w.getMsbD 5 = b2 ∧ w.getMsbD 6 = b1 ∧ w.getMsbD 7 = b0) ∧
  ∀ l : Line, (l.length < 8 ∨ ∃ c ∈ l.take 8, c ≠ '0' ∧ c ≠ '1') → lineWord l = none

/-- R66, R207, R220 with the spec's decision D30 (log 7): a source that cannot be opened or has no line
gives no run; any other source loads, and its run starts from the reset state with the image loaded. -/
def Obligations.LoadErrorGivesNoRun : Prop :=
  ∀ p : Params,
    boot p .unreadable = none ∧ boot p (.lines []) = none ∧
    ∀ (l : Line) (ls : List Line), ∃ m, load (.lines (l :: ls)) = .loaded m ∧
      boot p (.lines (l :: ls)) = some (State.resetWith p m)

/-- The canonical form is one: two memories in it that read alike at every address are equal (R51;
log 6). -/
def Obligations.CanonicalMemoryIsUnique : Prop :=
  ∀ m n : Memory, m.wf → n.wf → (∀ a, m.read a = n.read a) → m = n

/-! ### Invariants -/

/-- The invariant holds at reset, from any well-formed parameters and canonical image, and so at
`State.reset`. -/
def Obligations.ResetIsAdmitted : Prop :=
  (∀ (p : Params) (m : Memory), p.wellFormed = true → m.wf → (State.resetWith p m).Inv) ∧
  State.reset.Inv

/-- Every step keeps the invariant: memory canonical, A within R21 and `ACC_BOUND`, the pc within
`PC_BOUND`, HALT and err as the status says, `Start` first and `HaltNotice` last in the log. -/
def Obligations.StepKeepsTheInvariant : Prop :=
  ∀ s t : State, s.Inv → step s = .next t → t.Inv

/-- R135: CF and ZF are never both set after a step from a state where they are not. -/
def Obligations.StepKeepsFlagsExclusive : Prop :=
  ∀ s t : State, flagsExclusive s → step s = .next t → flagsExclusive t

/-- R6: the parameters of a machine never change. -/
def Obligations.StepKeepsTheParameters : Prop :=
  ∀ s t : State, step s = .next t → t.params = s.params

/-! ### Rules about the whole machine -/

/-- R54, R66: only a STA changes memory, and it changes only the cell it names. -/
def Obligations.OnlyStaChangesMemory : Prop :=
  ∀ s t : State, step s = .next t →
    (∀ a, t.mem.read a = s.mem.read a) ∨
    ∃ w imm, s.mem.read s.pc = .word w ∧ decodeWord w = .ok (.sta imm) ∧
      ∀ a, a ≠ imm.toNat → t.mem.read a = s.mem.read a

/-- R63, R64: the word a STA writes is the one the next fetch of that cell sees, and it runs as NOP. -/
def Obligations.StoredWordIsFetchedAsNop : Prop :=
  ∀ (s : State) (w : Word) (imm : Nibble) (a : Int), s.status = .running → s.halt = false →
    s.mem.read s.pc = .word w → decodeWord w = .ok (.sta imm) → s.acc = .value a →
    ∃ t v, step s = .next t ∧ t.status = .running ∧ t.mem.read imm.toNat = .word v ∧
      decodeWord v = .ok .nop ∧
      (t.pc = imm.toNat → step t = .next (postCycle { t with jumped := false }))

/-- R225: from a state with at most one flag set, a cycle that ends in debug mode leaves both flags
clear, so no later JC or JZ sees them. -/
def Obligations.DebugModeLeavesNoFlagSet : Prop :=
  ∀ s t : State, flagsExclusive s → step s = .next t → t.dbg = true → t.cf = false ∧ t.zf = false

/-- R30: DBG is flipped by DEBUG, set by a fetch of an `Empty` cell, and written by nothing else. -/
def Obligations.DebugFlagHasTwoWriters : Prop :=
  ∀ s t : State, step s = .next t →
    t.dbg = match s.mem.read s.pc with
      | .empty => true
      | .invalid => s.dbg
      | .word w => if decodeWord w = .ok .debug then !s.dbg else s.dbg

/-- R31: HALT goes from false to true only, and a cycle that sets it ends the run. -/
def Obligations.HaltIsOneWay : Prop :=
  ∀ s t : State, step s = .next t →
    (s.halt = true → t.halt = true) ∧ (t.halt = true → t.status ≠ .running)

/-- R95, R196, R198 (D18): in a cycle that ends `Errored`, the faulting instruction has written nothing
but err, HALT and the log; the pc holds its address, and the report precedes the post-cycle events. The
cycle that starts a run emits `Start` first (R103; log 4). -/
def Obligations.FatalErrorIsPrecise : Prop :=
  ∀ s t : State, s.status = .running → s.halt = false → s.err = none → step s = .next t →
    t.status = .errored →
    t.mem = s.mem ∧ t.acc = s.acc ∧ t.pc = s.pc ∧ t.dbg = s.dbg ∧
    (s.dbg = false → t.cf = s.cf ∧ t.zf = s.zf) ∧
    ∃ r, t.err = some r ∧
      t.log = (if s.started then s.log else s.log ++ [.start]) ++ [.errorReport s.pc r] ++
        postEvents s ++ [.haltNotice]

/-- R227: a run ends exactly when a cycle executes HLT or raises a fatal error. -/
def Obligations.RunEndsOnlyByHltOrFatalError : Prop :=
  ∀ s t : State, s.status = .running → s.halt = false → s.err = none → step s = .next t →
    (t.status = .halted ↔ ∃ w, s.mem.read s.pc = .word w ∧ decodeWord w = .ok .hlt) ∧
    (t.status = .errored ↔ t.err ≠ none)

/-- R194: with `ACC_BOUND = Unbounded` and `A_RESET = Value v`, neither accumulator fault occurs. -/
def Obligations.NoAccumulatorFaultWithValueAtReset : Prop :=
  ∀ s t : State, s.Inv → s.params.accBound = .unbounded → s.params.aReset ≠ .unset →
    step s = .next t → t.err ≠ some .unsetAccumulator ∧ t.err ≠ some .accumulatorRange

/-! ### Runs -/

/-- R104: a run that ends, from any parameters and image, ends with HALT set, `Start` first and
`HaltNotice` last in the log, an error reason exactly when it is `Errored`, and an outcome whose exit
class is zero exactly when it is `Halted` (R229 with D24, log 21). -/
def Obligations.EndedRunHasItsOutcome : Prop :=
  ∀ (p : Params) (m : Memory) (t : State), p.wellFormed = true → m.wf →
    EndsIn (State.resetWith p m) t →
    t.halt = true ∧ t.log.head? = some .start ∧ t.log.getLast? = some .haltNotice ∧
    (t.status = .errored ↔ t.err ≠ none) ∧
    runOutcome t = some
      { status := t.status, err := t.err, pc := t.pc, acc := t.acc, cf := t.cf, zf := t.zf,
        dbg := t.dbg, mem := t.mem, log := t.log } ∧
    (exitClass t.status = some .zero ↔ t.status = .halted)

/-- R93, R227 (a): under `PC_BOUND = Unbounded` (D11) a run whose pc reaches 16 never ends; each cycle
advances the pc and leaves memory and A alone. -/
def Obligations.RunPastTheArrayNeverEnds : Prop :=
  ∀ s : State, s.status = .running → s.halt = false → s.params.pcBound = .unbounded →
    16 ≤ s.pc →
    NeverEnds s ∧
    ∀ k t, Reaches k s t → t.pc = s.pc + k ∧ t.mem = s.mem ∧ t.acc = s.acc ∧
      (0 < k → t.dbg = true)

/-- R104, R150: a JMP to its own cell is an infinite loop, in debug mode too. -/
def Obligations.JumpToItselfNeverEnds : Prop :=
  ∀ (s : State) (w : Word) (imm : Nibble), s.status = .running → s.halt = false →
    s.mem.read s.pc = .word w → decodeWord w = .ok (.jmp imm) → imm.toNat = s.pc →
    NeverEnds s ∧ ∀ k t, Reaches k s t → t.pc = s.pc ∧ t.mem = s.mem ∧ t.acc = s.acc

/-- I5 (and R64, R110, R112): what the low bits of a data word hold is invisible to every later
instruction: two states that differ only there run alike for ever, event for event. -/
def Obligations.DataWordLowBitsAreInvisible : Prop :=
  ∀ (k : Nat) (s t s' : State), sameButData s t → Reaches k s s' →
    ∃ t', Reaches k t t' ∧ sameButData s' t' ∧ t'.log = s'.log
end

