-- ==== Sys2Proof/Laws/Memory.lean ====
section
/-! SUPPORT. The memory operations: a read after a write, and the canonical form that every one of them
keeps. -/

namespace Sys2Proof.Machine

/-! ### The list of words -/

@[simp] theorem lookupWord_insertWord_same (a : Nat) (w : Word) (l : List Host.Cell) :
    lookupWord a (insertWord a w l) = some w := by
  induction l with
  | nil => simp [insertWord, lookupWord]
  | cons c rest ih =>
    obtain ⟨b, v⟩ := c
    simp only [insertWord]
    split
    · simp [lookupWord]
    · split
      · simp [lookupWord]
      · simp [lookupWord, *]

theorem lookupWord_insertWord_other {a b : Nat} (h : b ≠ a) (w : Word) (l : List Host.Cell) :
    lookupWord b (insertWord a w l) = lookupWord b l := by
  induction l with
  | nil => simp [insertWord, lookupWord, h]
  | cons c rest ih =>
    obtain ⟨d, v⟩ := c
    simp only [insertWord]
    split
    · simp [lookupWord, h]
    · split
      · subst_vars; simp [lookupWord, h]
      · simp [lookupWord, ih]

theorem mem_insertWord {a : Nat} {w : Word} {l : List Host.Cell} {c : Host.Cell}
    (h : c ∈ insertWord a w l) : c = (a, w) ∨ c ∈ l := by
  induction l with
  | nil => simpa [insertWord] using h
  | cons d rest ih =>
    obtain ⟨b, v⟩ := d
    simp only [insertWord] at h
    split at h
    · simpa using h
    · split at h
      · rcases List.mem_cons.1 h with h | h <;> simp [h]
      · rcases List.mem_cons.1 h with h | h
        · simp [h]
        · rcases ih h with h | h <;> simp [h]

theorem mem_addresses_insertWord {a b : Nat} {w : Word} {l : List Host.Cell}
    (h : b ∈ (insertWord a w l).map Prod.fst) : b = a ∨ b ∈ l.map Prod.fst := by
  obtain ⟨c, hc, rfl⟩ := List.mem_map.1 h
  rcases mem_insertWord hc with rfl | hc
  · exact .inl rfl
  · exact .inr (List.mem_map_of_mem hc)

theorem insertWord_rising {l : List Host.Cell} (a : Nat) (w : Word)
    (h : (l.map Prod.fst).Pairwise (· < ·)) :
    ((insertWord a w l).map Prod.fst).Pairwise (· < ·) := by
  induction l with
  | nil => simp [insertWord]
  | cons c rest ih =>
    obtain ⟨b, v⟩ := c
    simp only [List.map_cons, List.pairwise_cons] at h
    simp only [insertWord]
    split
    · rename_i hab
      simp only [List.map_cons, List.pairwise_cons, List.mem_cons]
      refine ⟨?_, h.1, h.2⟩
      rintro x (rfl | hx)
      · exact hab
      · exact hab.trans (h.1 x hx)
    · split
      · subst_vars
        simpa using h
      · simp only [List.map_cons, List.pairwise_cons]
        refine ⟨fun x hx => ?_, ih h.2⟩
        rcases mem_addresses_insertWord hx with rfl | hx
        · omega
        · exact h.1 x hx

theorem lookupWord_some_mem {a : Nat} {w : Word} {l : List Host.Cell}
    (h : lookupWord a l = some w) : (a, w) ∈ l := by
  induction l with
  | nil => simp [lookupWord] at h
  | cons c rest ih =>
    obtain ⟨b, v⟩ := c
    simp only [lookupWord] at h
    split at h
    · simp_all
    · simp [ih h]

theorem lookupWord_none_iff {a : Nat} {l : List Host.Cell} :
    lookupWord a l = none ↔ a ∉ l.map Prod.fst := by
  induction l with
  | nil => simp [lookupWord]
  | cons c rest ih =>
    obtain ⟨b, v⟩ := c
    simp only [lookupWord]
    split
    · simp_all
    · simp_all

/-! ### Reads and writes -/

/-- An address past the array reads `Empty`. -/
theorem read_of_le {a : Nat} (m : Memory) (h : Config.memCells ≤ a) : m.read a = .empty := by
  simp [Memory.read, Nat.not_lt.2 h]

@[simp] theorem read_write_same (m : Memory) (a : Nibble) (w : Word) :
    (m.write a w).read a.toNat = .word w := by
  have : a.toNat < Config.memCells := a.isLt
  simp [Memory.read, Memory.write, this]

theorem read_write_other {b : Nat} (m : Memory) (a : Nibble) (w : Word) (h : b ≠ a.toNat) :
    (m.write a w).read b = m.read b := by
  simp [Memory.read, Memory.write, lookupWord_insertWord_other h, h]

@[simp] theorem read_blank (a : Nat) : Memory.blank.read a = .empty := by
  simp [Memory.read, Memory.blank, lookupWord]

/-! ### The canonical form -/

theorem blank_wf : Memory.blank.wf := by decide

theorem write_wf {m : Memory} (a : Nibble) (w : Word) (h : m.wf) : (m.write a w).wf := by
  obtain ⟨h1, h2, h3, h4, h5⟩ := h
  refine ⟨insertWord_rising _ _ h1, fun c hc => ?_, h3.filter _, fun b hb => ?_, fun b hb hm => ?_⟩
  · rcases mem_insertWord hc with rfl | hc
    · exact a.isLt
    · exact h2 c hc
  · exact h4 b (List.mem_filter.1 hb).1
  · have hb' := List.mem_filter.1 hb
    rcases mem_addresses_insertWord hm with rfl | hm
    · simp at hb'
    · exact h5 b hb'.1 hm

/-- Filling from cell `k` on lists only cells from `k` up to the last line's, in canonical form. -/
theorem fillFrom_form (ls : List Line) (k : Nat) (h : k + ls.length ≤ Config.memCells) :
    (fillFrom k ls).wf ∧ (∀ a ∈ (fillFrom k ls).words.map Prod.fst, k ≤ a) ∧
      ∀ a ∈ (fillFrom k ls).invalid, k ≤ a := by
  induction ls generalizing k with
  | nil => exact ⟨blank_wf, by simp [fillFrom, Memory.blank], by simp [fillFrom, Memory.blank]⟩
  | cons l rest ih =>
    simp only [List.length_cons] at h
    obtain ⟨⟨h1, h2, h3, h4, h5⟩, hw, hi⟩ := ih (k + 1) (by omega)
    simp only [fillFrom]
    cases lineWord l with
    | some w =>
      refine ⟨⟨?_, ?_, h3, h4, ?_⟩, ?_, ?_⟩
      · simp only [List.map_cons, List.pairwise_cons]
        exact ⟨fun a ha => hw a ha, h1⟩
      · rintro c (_ | ⟨_, hc⟩)
        · show k < Config.memCells
          omega
        · exact h2 c hc
      · intro a ha hm
        rcases List.mem_cons.1 hm with rfl | hm
        · exact absurd (hi _ ha) (by simp)
        · exact h5 a ha hm
      · intro a ha
        rcases List.mem_cons.1 ha with rfl | ha
        · exact Nat.le_refl _
        · exact Nat.le_of_succ_le (hw a ha)
      · exact fun a ha => Nat.le_of_succ_le (hi a ha)
    | none =>
      refine ⟨⟨h1, h2, ?_, ?_, ?_⟩, ?_, ?_⟩
      · exact List.pairwise_cons.2 ⟨fun a ha => hi a ha, h3⟩
      · rintro a (_ | ⟨_, ha⟩)
        · omega
        · exact h4 a ha
      · rintro a (_ | ⟨_, ha⟩) hm
        · exact absurd (hw _ hm) (by simp)
        · exact h5 a ha hm
      · exact fun a ha => Nat.le_of_succ_le (hw a ha)
      · rintro a (_ | ⟨_, ha⟩)
        · exact Nat.le_refl _
        · exact Nat.le_of_succ_le (hi a ha)

/-- Every image the loader gives is in canonical form. -/
theorem load_wf {src : ProgramSource} {m : Memory} (h : load src = .loaded m) : m.wf := by
  match src with
  | .unreadable => simp [load] at h
  | .lines [] => simp [load] at h
  | .lines (l :: ls) =>
    simp only [load, LoadResult.loaded.injEq] at h
    subst h
    exact (fillFrom_form _ 0 (by simp [Config.memCells])).1

end Sys2Proof.Machine
end

