-- ==== Sys2Proof/Laws/State.lean ====
section
/-! SUPPORT. One lemma per field per state update, each true by unfolding the update once: no later proof
unfolds a record update. -/

namespace Sys2Proof.Machine

variable (s : State)


/-! ### `State.emit` -/

@[simp] theorem emit_mem (e : Event) : (s.emit e).mem = s.mem := rfl
@[simp] theorem emit_pc (e : Event) : (s.emit e).pc = s.pc := rfl
@[simp] theorem emit_acc (e : Event) : (s.emit e).acc = s.acc := rfl
@[simp] theorem emit_cf (e : Event) : (s.emit e).cf = s.cf := rfl
@[simp] theorem emit_zf (e : Event) : (s.emit e).zf = s.zf := rfl
@[simp] theorem emit_dbg (e : Event) : (s.emit e).dbg = s.dbg := rfl
@[simp] theorem emit_halt (e : Event) : (s.emit e).halt = s.halt := rfl
@[simp] theorem emit_status (e : Event) : (s.emit e).status = s.status := rfl
@[simp] theorem emit_err (e : Event) : (s.emit e).err = s.err := rfl
@[simp] theorem emit_jumped (e : Event) : (s.emit e).jumped = s.jumped := rfl
@[simp] theorem emit_log (e : Event) : (s.emit e).log = s.log ++ [e] := rfl
@[simp] theorem emit_params (e : Event) : (s.emit e).params = s.params := rfl
@[simp] theorem emit_started (e : Event) : (s.emit e).started = s.started := rfl

/-! ### `State.trace` -/

@[simp] theorem trace_mem (e : Event) : (s.trace e).mem = s.mem := by
  unfold State.trace; split <;> rfl
@[simp] theorem trace_pc (e : Event) : (s.trace e).pc = s.pc := by
  unfold State.trace; split <;> rfl
@[simp] theorem trace_acc (e : Event) : (s.trace e).acc = s.acc := by
  unfold State.trace; split <;> rfl
@[simp] theorem trace_cf (e : Event) : (s.trace e).cf = s.cf := by
  unfold State.trace; split <;> rfl
@[simp] theorem trace_zf (e : Event) : (s.trace e).zf = s.zf := by
  unfold State.trace; split <;> rfl
@[simp] theorem trace_dbg (e : Event) : (s.trace e).dbg = s.dbg := by
  unfold State.trace; split <;> rfl
@[simp] theorem trace_halt (e : Event) : (s.trace e).halt = s.halt := by
  unfold State.trace; split <;> rfl
@[simp] theorem trace_status (e : Event) : (s.trace e).status = s.status := by
  unfold State.trace; split <;> rfl
@[simp] theorem trace_err (e : Event) : (s.trace e).err = s.err := by
  unfold State.trace; split <;> rfl
@[simp] theorem trace_jumped (e : Event) : (s.trace e).jumped = s.jumped := by
  unfold State.trace; split <;> rfl
@[simp] theorem trace_log (e : Event) : (s.trace e).log = if s.dbg then s.log ++ [e] else s.log := by
  unfold State.trace; split <;> rfl
@[simp] theorem trace_params (e : Event) : (s.trace e).params = s.params := by
  unfold State.trace; split <;> rfl
@[simp] theorem trace_started (e : Event) : (s.trace e).started = s.started := by
  unfold State.trace; split <;> rfl

/-! ### `State.setAcc` -/

@[simp] theorem setAcc_mem (v : Int) : (s.setAcc v).mem = s.mem := rfl
@[simp] theorem setAcc_pc (v : Int) : (s.setAcc v).pc = s.pc := rfl
@[simp] theorem setAcc_acc (v : Int) : (s.setAcc v).acc = .value v := rfl
@[simp] theorem setAcc_cf (v : Int) : (s.setAcc v).cf = s.cf := rfl
@[simp] theorem setAcc_zf (v : Int) : (s.setAcc v).zf = s.zf := rfl
@[simp] theorem setAcc_dbg (v : Int) : (s.setAcc v).dbg = s.dbg := rfl
@[simp] theorem setAcc_halt (v : Int) : (s.setAcc v).halt = s.halt := rfl
@[simp] theorem setAcc_status (v : Int) : (s.setAcc v).status = s.status := rfl
@[simp] theorem setAcc_err (v : Int) : (s.setAcc v).err = s.err := rfl
@[simp] theorem setAcc_jumped (v : Int) : (s.setAcc v).jumped = s.jumped := rfl
@[simp] theorem setAcc_log (v : Int) : (s.setAcc v).log = s.log := rfl
@[simp] theorem setAcc_params (v : Int) : (s.setAcc v).params = s.params := rfl
@[simp] theorem setAcc_started (v : Int) : (s.setAcc v).started = s.started := rfl

/-! ### `State.setFlags` -/

@[simp] theorem setFlags_mem (c z : Bool) : (s.setFlags c z).mem = s.mem := rfl
@[simp] theorem setFlags_pc (c z : Bool) : (s.setFlags c z).pc = s.pc := rfl
@[simp] theorem setFlags_acc (c z : Bool) : (s.setFlags c z).acc = s.acc := rfl
@[simp] theorem setFlags_cf (c z : Bool) : (s.setFlags c z).cf = c := rfl
@[simp] theorem setFlags_zf (c z : Bool) : (s.setFlags c z).zf = z := rfl
@[simp] theorem setFlags_dbg (c z : Bool) : (s.setFlags c z).dbg = s.dbg := rfl
@[simp] theorem setFlags_halt (c z : Bool) : (s.setFlags c z).halt = s.halt := rfl
@[simp] theorem setFlags_status (c z : Bool) : (s.setFlags c z).status = s.status := rfl
@[simp] theorem setFlags_err (c z : Bool) : (s.setFlags c z).err = s.err := rfl
@[simp] theorem setFlags_jumped (c z : Bool) : (s.setFlags c z).jumped = s.jumped := rfl
@[simp] theorem setFlags_log (c z : Bool) : (s.setFlags c z).log = s.log := rfl
@[simp] theorem setFlags_params (c z : Bool) : (s.setFlags c z).params = s.params := rfl
@[simp] theorem setFlags_started (c z : Bool) : (s.setFlags c z).started = s.started := rfl

/-! ### `State.jumpTo` -/

@[simp] theorem jumpTo_mem (t : Nat) : (s.jumpTo t).mem = s.mem := rfl
@[simp] theorem jumpTo_pc (t : Nat) : (s.jumpTo t).pc = t := rfl
@[simp] theorem jumpTo_acc (t : Nat) : (s.jumpTo t).acc = s.acc := rfl
@[simp] theorem jumpTo_cf (t : Nat) : (s.jumpTo t).cf = s.cf := rfl
@[simp] theorem jumpTo_zf (t : Nat) : (s.jumpTo t).zf = s.zf := rfl
@[simp] theorem jumpTo_dbg (t : Nat) : (s.jumpTo t).dbg = s.dbg := rfl
@[simp] theorem jumpTo_halt (t : Nat) : (s.jumpTo t).halt = s.halt := rfl
@[simp] theorem jumpTo_status (t : Nat) : (s.jumpTo t).status = s.status := rfl
@[simp] theorem jumpTo_err (t : Nat) : (s.jumpTo t).err = s.err := rfl
@[simp] theorem jumpTo_jumped (t : Nat) : (s.jumpTo t).jumped = true := rfl
@[simp] theorem jumpTo_log (t : Nat) : (s.jumpTo t).log = s.log := rfl
@[simp] theorem jumpTo_params (t : Nat) : (s.jumpTo t).params = s.params := rfl
@[simp] theorem jumpTo_started (t : Nat) : (s.jumpTo t).started = s.started := rfl

/-! ### `State.store` -/

@[simp] theorem store_mem (a : Nibble) (w : Word) : (s.store a w).mem = s.mem.write a w := rfl
@[simp] theorem store_pc (a : Nibble) (w : Word) : (s.store a w).pc = s.pc := rfl
@[simp] theorem store_acc (a : Nibble) (w : Word) : (s.store a w).acc = s.acc := rfl
@[simp] theorem store_cf (a : Nibble) (w : Word) : (s.store a w).cf = s.cf := rfl
@[simp] theorem store_zf (a : Nibble) (w : Word) : (s.store a w).zf = s.zf := rfl
@[simp] theorem store_dbg (a : Nibble) (w : Word) : (s.store a w).dbg = s.dbg := rfl
@[simp] theorem store_halt (a : Nibble) (w : Word) : (s.store a w).halt = s.halt := rfl
@[simp] theorem store_status (a : Nibble) (w : Word) : (s.store a w).status = s.status := rfl
@[simp] theorem store_err (a : Nibble) (w : Word) : (s.store a w).err = s.err := rfl
@[simp] theorem store_jumped (a : Nibble) (w : Word) : (s.store a w).jumped = s.jumped := rfl
@[simp] theorem store_log (a : Nibble) (w : Word) : (s.store a w).log = s.log := rfl
@[simp] theorem store_params (a : Nibble) (w : Word) : (s.store a w).params = s.params := rfl
@[simp] theorem store_started (a : Nibble) (w : Word) : (s.store a w).started = s.started := rfl

/-! ### `State.raiseFatal` -/

@[simp] theorem raiseFatal_mem (r : Cause) : (s.raiseFatal r).mem = s.mem := rfl
@[simp] theorem raiseFatal_pc (r : Cause) : (s.raiseFatal r).pc = s.pc := rfl
@[simp] theorem raiseFatal_acc (r : Cause) : (s.raiseFatal r).acc = s.acc := rfl
@[simp] theorem raiseFatal_cf (r : Cause) : (s.raiseFatal r).cf = s.cf := rfl
@[simp] theorem raiseFatal_zf (r : Cause) : (s.raiseFatal r).zf = s.zf := rfl
@[simp] theorem raiseFatal_dbg (r : Cause) : (s.raiseFatal r).dbg = s.dbg := rfl
@[simp] theorem raiseFatal_halt (r : Cause) : (s.raiseFatal r).halt = true := rfl
@[simp] theorem raiseFatal_status (r : Cause) : (s.raiseFatal r).status = s.status := rfl
@[simp] theorem raiseFatal_err (r : Cause) : (s.raiseFatal r).err = some r := rfl
@[simp] theorem raiseFatal_jumped (r : Cause) : (s.raiseFatal r).jumped = s.jumped := rfl
@[simp] theorem raiseFatal_log (r : Cause) : (s.raiseFatal r).log = s.log ++ [.errorReport s.pc r] := rfl
@[simp] theorem raiseFatal_params (r : Cause) : (s.raiseFatal r).params = s.params := rfl
@[simp] theorem raiseFatal_started (r : Cause) : (s.raiseFatal r).started = s.started := rfl

end Sys2Proof.Machine
end

