-- ==== Sys2Proof/Laws/Ops.lean ====
section
/-! SUPPORT. One lemma for each shared operation, saying once everything it can do. -/

namespace Sys2Proof.Machine

/-- Reading A: either A holds no value and the read is fatal, or the rest runs on its value. -/
theorem withAcc_cases (s : State) (go : Int → State) :
    (s.acc = .unset ∧ s.withAcc go = s.raiseFatal .unsetAccumulator) ∨
      ∃ a, s.acc = .value a ∧ s.withAcc go = go a := by
  unfold State.withAcc
  split
  · exact .inl ⟨‹_›, rfl⟩
  · exact .inr ⟨_, ‹_›, rfl⟩

theorem withAcc_value {s : State} {a : Int} (go : Int → State) (h : s.acc = .value a) :
    s.withAcc go = go a := by simp [State.withAcc, h]

theorem withAcc_unset {s : State} (go : Int → State) (h : s.acc = .unset) :
    s.withAcc go = s.raiseFatal .unsetAccumulator := by simp [State.withAcc, h]

/-- Tracing either emits the event or does nothing. -/
theorem trace_eq (s : State) (e : Event) : s.trace e = if s.dbg then s.emit e else s := rfl

@[simp] theorem immValue_nonneg (imm : Nibble) : 0 ≤ immValue imm := Int.natCast_nonneg _

theorem immValue_le (imm : Nibble) : immValue imm ≤ 15 := by
  have := imm.isLt
  unfold immValue
  omega

theorem cellAddress_lt (imm : Nibble) : cellAddress imm < 16 := imm.isLt

@[simp] theorem ldaAddr_opcodeField (op imm : Nibble) : ldaAddr .opcodeField op imm = op.toNat := rfl

@[simp] theorem ldaAddr_operandField (op imm : Nibble) : ldaAddr .operandField op imm = imm.toNat := rfl

/-- `low4` is the remainder modulo 16. -/
theorem low4_toNat (a : Int) : ((low4 a).toNat : Int) = a % 16 := by
  have h1 : 0 ≤ a % 16 := Int.emod_nonneg a (by decide)
  have h2 : a % 16 < 16 := Int.emod_lt_of_pos a (by decide)
  simp only [low4, BitVec.toNat_ofNat]
  omega

/-- The carry path always stores a value of the nominal width. -/
theorem addCarryTrunc_bounds (p : Params) (sum : Int) :
    0 ≤ addCarryTrunc p sum ∧ addCarryTrunc p sum ≤ 15 := by
  have bound : ∀ v : Nibble, (0 : Int) ≤ (v.toNat : Int) ∧ (v.toNat : Int) ≤ 15 := fun v => by
    have := v.isLt
    omega
  unfold addCarryTrunc
  split
  · split <;> exact bound _
  · exact bound _

/-- On its domain the carry path is the parameter's own entry. -/
theorem addCarryTrunc_entry (p : Params) (k : Fin 15) :
    addCarryTrunc p (16 + (k.val : Int)) = (p.addCarryTrunc[k].toNat : Int) := by
  have hk := k.isLt
  simp [addCarryTrunc]

@[simp] theorem accInRange_unbounded (d : Int) : accInRange .unbounded d = true := rfl

theorem accInRange_signed (w : Nat) (d : Int) :
    accInRange (.signed w) d = true ↔ -(2 ^ (w - 1)) ≤ d := by simp [accInRange]

@[simp] theorem nextPc_unbounded (pc : Nat) : nextPc .unbounded pc = pc + 1 := rfl

@[simp] theorem nextPc_wrap (w pc : Nat) : nextPc (.wrap w) pc = (pc + 1) % 2 ^ w := rfl

end Sys2Proof.Machine
end

