-- ==== Sys2Proof/Laws/Cycle.lean ====
section
/-! SUPPORT. The phases of a cycle: what each can do, said once, and the cycle as their composition. -/

namespace Sys2Proof.Machine

variable (s : State)

/-! ### The start of a cycle -/

/-- `beginCycle` emits `Start` where the run has not started, and clears `jumped`. -/
theorem beginCycle_eq :
    beginCycle s = { s with
      jumped := false
      started := true
      log := if s.started then s.log else s.log ++ [.start] } := by
  cases h : s.started <;> simp [beginCycle, startRun, State.emit, h]

@[simp] theorem beginCycle_mem : (beginCycle s).mem = s.mem := by simp [beginCycle_eq]
@[simp] theorem beginCycle_pc : (beginCycle s).pc = s.pc := by simp [beginCycle_eq]
@[simp] theorem beginCycle_acc : (beginCycle s).acc = s.acc := by simp [beginCycle_eq]
@[simp] theorem beginCycle_cf : (beginCycle s).cf = s.cf := by simp [beginCycle_eq]
@[simp] theorem beginCycle_zf : (beginCycle s).zf = s.zf := by simp [beginCycle_eq]
@[simp] theorem beginCycle_dbg : (beginCycle s).dbg = s.dbg := by simp [beginCycle_eq]
@[simp] theorem beginCycle_halt : (beginCycle s).halt = s.halt := by simp [beginCycle_eq]
@[simp] theorem beginCycle_status : (beginCycle s).status = s.status := by simp [beginCycle_eq]
@[simp] theorem beginCycle_err : (beginCycle s).err = s.err := by simp [beginCycle_eq]
@[simp] theorem beginCycle_jumped : (beginCycle s).jumped = false := by simp [beginCycle_eq]
@[simp] theorem beginCycle_params : (beginCycle s).params = s.params := by simp [beginCycle_eq]
@[simp] theorem beginCycle_started : (beginCycle s).started = true := by simp [beginCycle_eq]
@[simp] theorem beginCycle_log :
    (beginCycle s).log = if s.started then s.log else s.log ++ [.start] := by simp [beginCycle_eq]

/-! ### The post-cycle phases -/

/-- The pause changes nothing but the log. -/
theorem pausePhase_eq :
    pausePhase s = { s with log := if s.dbg then s.log ++ [.pause] else s.log } := by
  unfold pausePhase State.emit
  split <;> rfl

/-- The warning phase: nothing outside debug mode or with both flags clear; else one event and the flag
it names cleared, CF first. -/
theorem warnPhase_cases :
    (s.dbg = false ∧ warnPhase s = s) ∨
    (s.dbg = true ∧ s.cf = true ∧
      warnPhase s = { s with cf := false, log := s.log ++ [.warnCF s.pc] }) ∨
    (s.dbg = true ∧ s.cf = false ∧ s.zf = true ∧
      warnPhase s = { s with zf := false, log := s.log ++ [.warnZF s.pc] }) ∨
    (s.dbg = true ∧ s.cf = false ∧ s.zf = false ∧ warnPhase s = s) := by
  cases h : s.dbg <;> cases hc : s.cf <;> cases hz : s.zf <;> simp [warnPhase, State.emit, h, hc, hz]

/-- The end of the cycle: the halt check, a jump's target kept, or the advance. -/
theorem endPhase_cases :
    (s.halt = true ∧
      endPhase s = { s with status := endStatus s.err, log := s.log ++ [.haltNotice] }) ∨
    (s.halt = false ∧ s.jumped = true ∧ endPhase s = s) ∨
    (s.halt = false ∧ s.jumped = false ∧
      endPhase s = { s with pc := nextPc s.params.pcBound s.pc }) := by
  cases h : s.halt <;> cases hj : s.jumped <;> simp [endPhase, State.emit, h, hj]

@[simp] theorem endStatus_none : endStatus none = .halted := rfl
@[simp] theorem endStatus_some (r : Cause) : endStatus (some r) = .errored := rfl

/-! ### The step -/

/-- A running core runs one cycle. -/
theorem step_of_running (h : s.status = .running) : step s = runCycle s := by simp [step, h]

/-- The three ways a fetch goes. -/
theorem fetchExecute_cases :
    (s.mem.read s.pc = .empty ∧ fetchExecute s = .next (emptyFetch s)) ∨
    (s.mem.read s.pc = .invalid ∧ fetchExecute s = .next (s.raiseFatal .malformedWord)) ∨
    (∃ w, s.mem.read s.pc = .word w ∧ fetchExecute s = executeWord w s) := by
  unfold fetchExecute
  split
  · exact .inl ⟨‹_›, rfl⟩
  · exact .inr (.inl ⟨‹_›, rfl⟩)
  · exact .inr (.inr ⟨_, ‹_›, rfl⟩)

/-- A word either decodes to an instruction, which runs, or is fatal. -/
theorem executeWord_cases (w : Word) :
    (∃ i, decodeWord w = .ok i ∧ executeWord w s = exec i s) ∨
    (∃ op, decodeWord w = .error (.invalidOpcode op) ∧
      executeWord w s = .next (s.raiseFatal .invalidOpcode)) := by
  unfold executeWord
  split
  · exact .inl ⟨_, ‹_›, rfl⟩
  · exact .inr ⟨_, ‹_›, rfl⟩

/-- A cycle that has a next state: the execute stage had one, and the post-cycle phase followed it. -/
theorem runCycle_next {t : State} (h : runCycle s = .next t) :
    ∃ u, fetchExecute (beginCycle s) = .next u ∧ t = postCycle u := by
  unfold runCycle finishCycle at h
  split at h
  · exact ⟨_, ‹_›, by cases h; rfl⟩
  · cases h
  · cases h

/-! ### Runs -/

@[simp] theorem run_zero : Sys2Proof.core.run 0 s = .next s := rfl

theorem run_succ_of_next {t : State} (k : Nat) (h : step s = .next t) :
    Sys2Proof.core.run (k + 1) s = Sys2Proof.core.run k t := by
  have hs : Sys2Proof.core.step s = .next t := h
  simp only [Host.Core.run, hs]

end Sys2Proof.Machine
end

