-- ==== Sys2Proof/Laws/Decode.lean ====
section
/-! SUPPORT. The two fields of a word, and the decoder as a function of them. -/

namespace Sys2Proof

@[simp] theorem opField_joinNibbles (hi lo : Nibble) : opField (joinNibbles hi lo) = hi := by
  revert hi lo; decide

@[simp] theorem immField_joinNibbles (hi lo : Nibble) : immField (joinNibbles hi lo) = lo := by
  revert hi lo; decide

theorem joinNibbles_fields (w : Word) : joinNibbles (opField w) (immField w) = w := by
  revert w; decide

theorem decodeWord_joinNibbles (hi lo : Nibble) :
    decodeWord (joinNibbles hi lo) = decodeFields hi lo := by
  simp [decodeWord]

end Sys2Proof
end

