-- ==== Sys2Proof/Laws/PerInstr.lean ====
section
/-! SUPPORT. The family `OpcodeMapped`: the encoder gives every instruction an opcode of the map (R75),
and that opcode is the high field of its word. One lemma per constructor. -/

namespace Sys2Proof.Laws

/-- The high field of an instruction's word is its opcode, and that opcode is mapped. -/
def OpcodeMapped.Statement (i : Instr) : Prop :=
  opField (encode i) = i.opcode ∧ opcodeMapped i.opcode = true

theorem OpcodeMapped.nop : OpcodeMapped.Statement .nop := ⟨opField_joinNibbles _ _, rfl⟩
theorem OpcodeMapped.lda (imm : Nibble) : OpcodeMapped.Statement (.lda imm) := ⟨opField_joinNibbles _ _, rfl⟩
theorem OpcodeMapped.add (imm : Nibble) : OpcodeMapped.Statement (.add imm) := ⟨opField_joinNibbles _ _, rfl⟩
theorem OpcodeMapped.sub (imm : Nibble) : OpcodeMapped.Statement (.sub imm) := ⟨opField_joinNibbles _ _, rfl⟩
theorem OpcodeMapped.sta (imm : Nibble) : OpcodeMapped.Statement (.sta imm) := ⟨opField_joinNibbles _ _, rfl⟩
theorem OpcodeMapped.ldi (imm : Nibble) : OpcodeMapped.Statement (.ldi imm) := ⟨opField_joinNibbles _ _, rfl⟩
theorem OpcodeMapped.jmp (imm : Nibble) : OpcodeMapped.Statement (.jmp imm) := ⟨opField_joinNibbles _ _, rfl⟩
theorem OpcodeMapped.jc (imm : Nibble) : OpcodeMapped.Statement (.jc imm) := ⟨opField_joinNibbles _ _, rfl⟩
theorem OpcodeMapped.jz (imm : Nibble) : OpcodeMapped.Statement (.jz imm) := ⟨opField_joinNibbles _ _, rfl⟩
theorem OpcodeMapped.debug : OpcodeMapped.Statement .debug := ⟨opField_joinNibbles _ _, rfl⟩
theorem OpcodeMapped.out : OpcodeMapped.Statement .out := ⟨opField_joinNibbles _ _, rfl⟩
theorem OpcodeMapped.hlt : OpcodeMapped.Statement .hlt := ⟨opField_joinNibbles _ _, rfl⟩

end Sys2Proof.Laws
end

