-- ==== Sys2Proof/Tests/Slice0.lean ====
section
/-! SUPPORT. Small tests, with results taken from the tables of 95_test_vectors.md (the `source` of each
is named), the smoke tests of the well-formedness checks, and for every obligation that has hypotheses a
witness that meets them together. -/

namespace Sys2Proof.Tests

open Sys2Proof.Machine

/-! ### Helpers -/

/-- The state of the vectors of Part 2: `pc = 4`, the word under test in cell 4, the run started, every
other piece of state at its reset value. -/
def at4 (w : Word) : State :=
  { State.resetWith Params.standard { words := [(4, w)], invalid := [] } with
    pc := 4, started := true }

/-- `at4` with a value in A. -/
def at4A (w : Word) (a : Int) : State := { at4 w with acc := .value a }

/-- A, CF, ZF, pc and the log after one step. -/
def after (s : State) : Option (Acc × Bool × Bool × Nat × List Event) :=
  match step s with
  | .next t => some (t.acc, t.cf, t.zf, t.pc, t.log)
  | .fault _ => none
  | .refused _ => none

/-- Status, err, DBG and pc after one step. -/
def endOf (s : State) : Option (Status × Option Cause × Bool × Nat) :=
  match step s with
  | .next t => some (t.status, t.err, t.dbg, t.pc)
  | .fault _ => none
  | .refused _ => none

/-- One cell after one step. -/
def cellAfter (s : State) (a : Nat) : Option CellValue :=
  match step s with
  | .next t => some (t.mem.read a)
  | .fault _ => none
  | .refused _ => none

/-- The step has a next state. -/
def steps (s : State) : Bool :=
  match step s with
  | .next _ => true
  | .fault _ => false
  | .refused _ => false

/-! ### Well-formedness: each check refuses an ill-formed term -/

theorem test_wf_standard : Params.standard.wellFormed = true := by decide
theorem test_wf_refuses_signed_4 : AccBound.wellFormed (.signed 4) = false := by decide
theorem test_wf_refuses_wrap_3 : PcBound.wellFormed (.wrap 3) = false := by decide
theorem test_wf_params_refuse_signed_4 :
    Params.wellFormed { Params.standard with accBound := .signed 4 } = false := by decide
theorem test_wf_params_refuse_wrap_3 :
    Params.wellFormed { Params.standard with pcBound := .wrap 3 } = false := by decide
theorem test_wf_refuses_opcode_1010 : opcodeMapped 0b1010#4 = false := by decide
theorem test_wf_refuses_opcode_1101 : opcodeMapped 0b1101#4 = false := by decide
theorem test_wf_memory_refuses_unsorted :
    ¬ Memory.wf { words := [(3, 0), (2, 0)], invalid := [] } := by decide
theorem test_wf_memory_refuses_cell_16 :
    ¬ Memory.wf { words := [(16, 0)], invalid := [] } := by decide
theorem test_wf_memory_refuses_invalid_unsorted :
    ¬ Memory.wf { words := [], invalid := [5, 5] } := by decide
theorem test_wf_memory_refuses_invalid_16 :
    ¬ Memory.wf { words := [], invalid := [16] } := by decide
theorem test_wf_memory_refuses_cell_in_both :
    ¬ Memory.wf { words := [(3, 0)], invalid := [3] } := by decide

/-! ### Decode: every constructor by a word written out (Part 2, Decode) -/

theorem test_decode_nop : decodeWord 0b00001111#8 = .ok .nop := by decide
theorem test_decode_lda : decodeWord 0b00011111#8 = .ok (.lda 15) := by decide
theorem test_decode_add : decodeWord 0b00100011#8 = .ok (.add 3) := by decide
theorem test_decode_sub : decodeWord 0b00110001#8 = .ok (.sub 1) := by decide
theorem test_decode_sta : decodeWord 0b01000101#8 = .ok (.sta 5) := by decide
theorem test_decode_ldi : decodeWord 0b01011111#8 = .ok (.ldi 15) := by decide
theorem test_decode_jmp : decodeWord 0b01101100#8 = .ok (.jmp 12) := by decide
theorem test_decode_jc : decodeWord 0b01110000#8 = .ok (.jc 0) := by decide
theorem test_decode_jz : decodeWord 0b10000100#8 = .ok (.jz 4) := by decide
theorem test_decode_debug : decodeWord 0b10010000#8 = .ok .debug := by decide
theorem test_decode_out : decodeWord 0b11100101#8 = .ok .out := by decide
theorem test_decode_hlt : decodeWord 0b11111111#8 = .ok .hlt := by decide
theorem test_decode_refuses_1010 : decodeWord 0b10100000#8 = .error (.invalidOpcode 0b1010#4) := by decide
theorem test_decode_refuses_1011 : decodeWord 0b10110111#8 = .error (.invalidOpcode 0b1011#4) := by decide
theorem test_decode_refuses_1100 : decodeWord 0b11000101#8 = .error (.invalidOpcode 0b1100#4) := by decide
theorem test_decode_refuses_1101 : decodeWord 0b11011111#8 = .error (.invalidOpcode 0b1101#4) := by decide
theorem test_encode_ldi : encode (.ldi 5) = 0b01010101#8 := by decide
theorem test_encode_out : encode .out = 0b11100000#8 := by decide
theorem test_table_word : decodeTableWord 8 0x84 = some (.jz 4) := by decide

/-! ### One step of each instruction (Part 2, per family) -/

theorem test_nop_advances : after (at4 0x09) = some (.unset, false, false, 5, []) := by decide
theorem test_lda_reads_cell_1 :
    after { at4 0x1F with mem := { words := [(1, 0xFF), (4, 0x1F)], invalid := [] } } =
      some (.value 15, false, false, 5, []) := by decide
theorem test_lda_operand_field :
    after { at4 0x13 with
      mem := { words := [(1, 0x5A), (3, 0x92), (4, 0x13)], invalid := [] }
      params := { Params.standard with ldaAddrSelect := .operandField } } =
      some (.value 9, false, false, 5, []) := by decide
theorem test_add_carry_at_16 :
    after (at4A 0x21 15) = some (.value 0, true, false, 5, []) := by decide
theorem test_add_warns_and_clears :
    after { at4A 0x20 0 with dbg := true } =
      some (.value 0, false, false, 5, [.traceAdd 0 0, .pause, .warnZF 4]) := by decide
theorem test_sub_borrow : after (at4A 0x31 0) = some (.value (-1), true, false, 5, []) := by decide
theorem test_sta_negative : cellAfter (at4A 0x42 (-17)) 2 = some (.word 0x0F) := by decide
theorem test_sta_over_invalid :
    cellAfter { at4A 0x42 9 with mem := { words := [(4, 0x42)], invalid := [2] } } 2 =
      some (.word 0x09) := by decide
theorem test_ldi_traces :
    after { at4 0x59 with dbg := true } =
      some (.value 9, false, false, 5, [.traceLdi 9, .pause]) := by decide
theorem test_ldi_keeps_zf :
    after { at4 0x50 with zf := true } = some (.value 0, false, true, 5, []) := by decide
theorem test_jmp_warns_with_target :
    after { at4 0x69 with dbg := true, cf := true } =
      some (.unset, false, false, 9, [.pause, .warnCF 9]) := by decide
theorem test_jc_reads_only_cf :
    after { at4 0x72 with zf := true } = some (.unset, false, true, 5, []) := by decide
theorem test_jc_taken_keeps_cf :
    after { at4 0x70 with cf := true } = some (.unset, true, false, 0, []) := by decide
theorem test_jz_reads_only_zf :
    after { at4 0x82 with cf := true } = some (.unset, true, false, 5, []) := by decide
theorem test_jz_taken :
    after { at4 0x82 with zf := true } = some (.unset, false, true, 2, []) := by decide
theorem test_debug_on_warns :
    after { at4 0x90 with cf := true } =
      some (.unset, false, false, 5, [.debugState true, .pause, .warnCF 4]) := by decide
theorem test_debug_off :
    after { at4 0x90 with dbg := true } =
      some (.unset, false, false, 5, [.debugState false]) := by decide
theorem test_out_negative :
    after (at4A 0xE0 (-1)) = some (.value (-1), false, false, 5, [.out (-1)]) := by decide
theorem test_hlt_in_debug_mode :
    after { at4 0xF0 with dbg := true, zf := true } =
      some (.unset, false, false, 4, [.pause, .warnZF 4, .haltNotice]) := by decide
theorem test_hlt_status : endOf (at4 0xF0) = some (.halted, none, false, 4) := by decide

/-! ### Fetch and faults (Part 2, Fetch and faults) -/

theorem test_empty_fetch_past_array :
    endOf { at4 0 with pc := 16 } = some (.running, none, true, 17) := by decide
theorem test_empty_fetch_wraps :
    endOf { at4 0 with pc := 15, params := { Params.standard with pcBound := .wrap 4 } } =
      some (.running, none, true, 0) := by decide
theorem test_invalid_cell :
    endOf { at4 0 with mem := { words := [], invalid := [4] } } =
      some (.errored, some .malformedWord, false, 4) := by decide
theorem test_invalid_opcode_in_debug_mode :
    after { at4 0xC5 with dbg := true, cf := true } =
      some (.unset, false, false, 4,
        [.errorReport 4 .invalidOpcode, .pause, .warnCF 4, .haltNotice]) := by decide
theorem test_unset_accumulator :
    endOf (at4 0xE0) = some (.errored, some .unsetAccumulator, false, 4) := by decide
theorem test_signed_8_out_of_range :
    after { at4A 0x3F (-120) with params := { Params.standard with accBound := .signed 8 } } =
      some (.value (-120), false, false, 4,
        [.errorReport 4 .accumulatorRange, .haltNotice]) := by decide
theorem test_first_cycle_emits_start :
    after State.reset = some (.unset, false, false, 1, [.start, .pause]) := by decide
theorem test_terminal_stops : steps { at4 0 with status := .halted } = false := by decide

/-! ### The loader (Part 2, Loader) -/

theorem test_line_word : lineWord "01010101".toList = some 0x55 := by decide
theorem test_line_truncated : lineWord "0101010111".toList = some 0x55 := by decide
theorem test_line_short : lineWord "1111".toList = none := by decide
theorem test_line_bad_symbol : lineWord "0101x101".toList = none := by decide
theorem test_load_blank_line :
    load (.lines ["01010101".toList, [], "11110000".toList]) =
      .loaded { words := [(0, 0x55), (2, 0xF0)], invalid := [1] } := by decide

/-! ### Witnesses: the hypotheses of each obligation, met together -/

theorem witness_DecoderFollowsTheOpcodeMap :
    (List.range 16).map (fun n => (opField (BitVec.ofNat 8 (16 * n))).toNat) = List.range 16 := by
  decide
theorem witness_EncodeRecoversTheWord :
    decodeWord 0x45#8 = .ok (.sta 5) ∧ Instr.sta 5 ∉ [Instr.nop, .debug, .out, .hlt] ∧
    decodeWord 0xE5#8 = .ok .out ∧ Instr.out ∈ [Instr.nop, .debug, .out, .hlt] := by decide
theorem witness_UnusedOperandBitsAreIgnored :
    opField 0xE0#8 = opField 0xEF#8 ∧ opField 0xE0#8 ∈ [0b0000#4, 0b1001#4, 0b1110#4, 0b1111#4] ∧
    opField 0x10#8 = opField 0x1F#8 ∧ opField 0x10#8 = 0b0001#4 ∧
    (at4 0).params.ldaAddrSelect = .opcodeField := by decide
theorem witness_NopOnlyAdvancesThePc :
    (at4 0x0F).status = .running ∧ (at4 0x0F).started = true ∧ (at4 0x0F).halt = false ∧ (at4 0x0F).dbg = false ∧
    (at4 0x0F).params.pcBound = .unbounded ∧ (at4 0x0F).mem.read (at4 0x0F).pc = .word 0x0F ∧
    opField 0x0F#8 = 0b0000#4 := by decide

/-- Cell 1 and cell 15 hold words, and LDA reads either by the parameter. -/
def ldaState (sel : LdaAddrSelect) : State :=
  { at4 0x1F with
    mem := { words := [(1, 0xFF), (15, 0x80)], invalid := [] }
    params := { Params.standard with ldaAddrSelect := sel } }

theorem witness_LdaLoadsTheHighNibble :
    (ldaState .opcodeField).params.ldaAddrSelect = .opcodeField ∧
    (ldaState .opcodeField).mem.read 1 = .word 0xFF ∧
    (ldaState .operandField).params.ldaAddrSelect = .operandField ∧
    (ldaState .operandField).mem.read (15#4).toNat = .word 0x80 := by decide
theorem witness_LdaWithoutAWordIsFatal :
    (at4 0x10).mem.read 1 = .empty ∧
    ({ at4 0x10 with mem := { words := [], invalid := [1] } } : State).mem.read 1 = .invalid := by
  decide
theorem witness_StaStoresTheLowNibble :
    (at4A 0x42 (-17)).acc = .value (-17) ∧ (at4A 0x4F 15).acc = .value 15 := by decide
theorem witness_AddStoresTheSumAndFlags :
    (at4A 0x20 15).acc = .value 15 ∧ (15 : Int) + (0#4).toNat ≤ 15 ∧
    (15 : Int) + (1#4).toNat = 16 + ((0 : Fin 15).val : Int) ∧
    (15 : Int) + (15#4).toNat = 16 + ((14 : Fin 15).val : Int) := by decide
theorem witness_AddCarryPathDropsTheLeadingBit :
    (at4A 0x21 15).params.addCarryTrunc = Config.dropLeadingBit ∧
    (at4A 0x21 15).acc = .value 15 ∧ 16 ≤ (15 : Int) + (1#4).toNat ∧ (15 : Int) ≤ 15 := by decide
theorem witness_AddTracesBeforeThePostCyclePhase :
    (at4A 0x23 5).acc = .value 5 ∧ (at4A 0x23 5).status = .running ∧
    (at4A 0x23 5).started = true ∧
    (at4A 0x23 5).mem.read (at4A 0x23 5).pc = .word 0x23 ∧ decodeWord 0x23#8 = .ok (.add 3) := by
  decide

/-- A state under `ACC_BOUND = Signed 8`. -/
def signed8 (a : Int) : State :=
  { at4A 0x3F a with params := { Params.standard with accBound := .signed 8 } }

theorem witness_SubStoresTheDifferenceAndFlags :
    (at4A 0x31 0).acc = .value 0 ∧ (at4A 0x31 0).params.accBound = .unbounded ∧
    (signed8 (-113)).acc = .value (-113) ∧ (signed8 (-113)).params.accBound = .signed 8 ∧
    -(2 ^ (8 - 1)) ≤ (-113 : Int) - ((15#4).toNat : Int) := by decide
theorem witness_SubBelowTheSignedRangeIsFatal :
    (signed8 (-114)).acc = .value (-114) ∧ (signed8 (-114)).params.accBound = .signed 8 ∧
    (-114 : Int) - ((15#4).toNat : Int) < -(2 ^ (8 - 1)) := by decide
theorem witness_ReadingTheUnsetAccumulatorIsFatal :
    (at4 0xE0).acc = .unset ∧ Instr.out ∈ [Instr.add 0, .sub 0, .sta 0, .out] ∧
    Instr.sta 0 ∈ [Instr.add 0, .sub 0, .sta 0, .out] := by decide
theorem witness_JmpGoesToItsTarget :
    (at4 0x69).status = .running ∧ (at4 0x69).halt = false ∧
    (at4 0x69).mem.read (at4 0x69).pc = .word 0x69 ∧ decodeWord 0x69#8 = .ok (.jmp 9) ∧
    ({ at4 0x69 with dbg := true, cf := true } : State).dbg = true := by decide
theorem witness_ConditionalJumpsReadOneFlag :
    (at4 0x7F).status = .running ∧ (at4 0x7F).halt = false ∧
    (at4 0x7F).params.pcBound = .unbounded ∧ (at4 0x7F).mem.read (at4 0x7F).pc = .word 0x7F ∧
    decodeWord 0x7F#8 = .ok (.jc 15) ∧
    (at4 0x80).mem.read (at4 0x80).pc = .word 0x80 ∧ decodeWord 0x80#8 = .ok (.jz 0) := by decide
theorem witness_OutReportsTheAccumulator :
    (at4A 0xE0 (-1)).acc = .value (-1) ∧ ∃ t, exec .out (at4A 0xE0 (-1)) = .next t :=
  ⟨by decide, _, rfl⟩
theorem witness_HltEndsTheRun :
    (at4 0xFF).status = .running ∧ (at4 0xFF).started = true ∧ (at4 0xFF).err = none ∧
    (at4 0xFF).mem.read (at4 0xFF).pc = .word 0xFF ∧ opField 0xFF#8 = 0b1111#4 := by decide
theorem witness_ExecuteStageFrame :
    (∃ t, exec (.jmp 9) (at4 0x69) = .next t) ∧
    (∀ x, Instr.jmp 9 ≠ .sta x) ∧ (∀ x, Instr.jmp 9 ≠ .add x ∧ Instr.jmp 9 ≠ .sub x) ∧
    Instr.jmp 9 ≠ .debug ∧ Instr.jmp 9 ≠ .hlt ∧
    (∀ x, Instr.jmp 9 ≠ .lda x ∧ Instr.jmp 9 ≠ .add x ∧ Instr.jmp 9 ≠ .sub x ∧
      Instr.jmp 9 ≠ .ldi x) ∧
    (∃ t, exec .out (at4 0xE0) = .next t) ∧
    (∀ x, Instr.out ≠ .jmp x ∧ Instr.out ≠ .jc x ∧ Instr.out ≠ .jz x) := by
  refine ⟨⟨_, rfl⟩, ?_, ?_, ?_, ?_, ?_, ⟨_, rfl⟩, ?_⟩ <;> simp
theorem witness_StepRunsTheDecodedInstruction :
    (at4 0x53).status = .running ∧ (at4 0x53).mem.read (at4 0x53).pc = .word 0x53 ∧
    decodeWord 0x53#8 = .ok (.ldi 3) := by decide
theorem witness_EmptyFetchTurnsDebugOn :
    State.reset.status = .running ∧ State.reset.halt = false ∧
    State.reset.params.pcBound = .unbounded ∧ State.reset.mem.read State.reset.pc = .empty := by
  decide
theorem witness_InvalidOpcodeEndsTheRun :
    (at4 0xDF).status = .running ∧ (at4 0xDF).started = true ∧ (at4 0xDF).mem.read (at4 0xDF).pc = .word 0xDF ∧
    opField 0xDF#8 ∈ [0b1010#4, 0b1011#4, 0b1100#4, 0b1101#4] := by decide
theorem witness_MalformedWordEndsTheRun :
    let s : State := { at4 0 with mem := { words := [], invalid := [4] } }
    s.status = .running ∧ s.mem.read s.pc = .invalid := by decide
theorem witness_PostCycleHaltsOrAdvances :
    ({ at4 0 with halt := true } : State).halt = true ∧ (at4 0).halt = false ∧
    ({ at4 0 with jumped := true } : State).jumped = true ∧ (at4 0).jumped = false ∧
    (at4 0).params.pcBound = .unbounded ∧
    ({ Params.standard with pcBound := .wrap 4 } : Params).pcBound = .wrap 4 := by decide
theorem witness_PcAdvancesUnlessJumpOrHalt :
    (at4 0x7F).status = .running ∧ (at4 0x7F).halt = false ∧
    (at4 0x7F).params.pcBound = .unbounded := by decide
theorem witness_TerminalStatesTakeNoStep :
    ({ at4 0 with status := .halted } : State).status ≠ .running ∧
    ({ at4 0 with status := .errored } : State).status = .errored := by decide
theorem witness_RunningCoreAlwaysCompletesItsCycle : State.reset.status = .running := by decide
theorem witness_PlacedWordIsTheNextExecuted : (255 : Nat) < 256 := by decide
theorem witness_ResetValues :
    Params.standard.aReset = .unset ∧
    ({ Params.standard with aReset := .value 15 } : Params).aReset = .value 15 := by decide
theorem witness_StartComesFirstAndOnce :
    steps (at4 0x53) = true ∧ (at4 0x53).started = true ∧ steps State.reset = true := by decide
theorem witness_LoadedImageFollowsTheLines :
    load (.lines ["1111".toList]) = .loaded { words := [], invalid := [0] } ∧ 15 < 16 := by decide
/-- A bad symbol in the first and in the eighth place, a line of seven symbols, a blank line. -/
theorem witness_LineSymbolsAreTheBits :
    (∃ c ∈ "x0000000".toList.take 8, c ≠ '0' ∧ c ≠ '1') ∧
    (∃ c ∈ "0000000x1".toList.take 8, c ≠ '0' ∧ c ≠ '1') ∧
    "0000000".toList.length < 8 ∧ ([] : Line).length < 8 :=
  ⟨⟨'x', by decide, by decide, by decide⟩, ⟨'x', by decide, by decide, by decide⟩,
    by decide, by decide⟩
theorem witness_CanonicalMemoryIsUnique :
    Memory.wf { words := [(0, 1), (15, 2)], invalid := [1, 7] } := by decide
theorem witness_ResetIsAdmitted : Params.standard.wellFormed = true ∧ Memory.blank.wf := by decide

/-- A state of the invariant other than reset. -/
theorem at4_inv (w : Word) (p : Params) (v : Nibble) (h : p.wellFormed = true)
    (hb : p.pcBound = .unbounded) (ha : p.accBound = .unbounded) :
    ({ at4 w with params := p, acc := .value v.toNat, log := [.start] } : State).Inv where
  params_ok := h
  mem_ok := by
    refine ⟨by simp [at4, State.resetWith], ?_, by simp [at4, State.resetWith],
      by simp [at4, State.resetWith], by simp [at4, State.resetWith]⟩
    simp [at4, State.resetWith, Config.memCells]
  acc_ok := ⟨by have := v.isLt; omega, by simp [ha]⟩
  pc_ok := by simp [hb, pcAdmitted]
  status_ok := ⟨rfl, rfl⟩
  log_ok := by simp [logAdmitted, at4, State.resetWith]

theorem witness_StepKeepsTheInvariant :
    ({ at4 0x53 with params := Params.standard, acc := .value (5#4).toNat, log := [.start] } :
      State).Inv ∧
    steps { at4 0x53 with params := Params.standard, acc := .value (5#4).toNat, log := [.start] } =
      true :=
  ⟨at4_inv _ _ _ (by decide) rfl rfl, by decide⟩
theorem witness_StepKeepsFlagsExclusive :
    flagsExclusive { at4A 0x21 15 with zf := true } ∧
    steps { at4A 0x21 15 with zf := true } = true :=
  ⟨by simp [flagsExclusive, at4A, at4, State.resetWith, Params.standard], by decide⟩
theorem witness_StepKeepsTheParameters : steps (at4 0x53) = true := by decide
theorem witness_OnlyStaChangesMemory :
    steps (at4A 0x42 9) = true ∧ cellAfter (at4A 0x42 9) 2 = some (.word 9) ∧
    cellAfter (at4A 0x42 9) 3 = some .empty := by decide
theorem witness_StoredWordIsFetchedAsNop :
    (at4A 0x45 9).status = .running ∧ (at4A 0x45 9).halt = false ∧
    (at4A 0x45 9).mem.read (at4A 0x45 9).pc = .word 0x45 ∧ decodeWord 0x45#8 = .ok (.sta 5) ∧
    (at4A 0x45 9).acc = .value 9 ∧ endOf (at4A 0x45 9) = some (.running, none, false, 5) := by
  decide
theorem witness_DebugModeLeavesNoFlagSet :
    flagsExclusive { at4A 0x21 15 with dbg := true } ∧
    endOf { at4A 0x21 15 with dbg := true } = some (.running, none, true, 5) :=
  ⟨by simp [flagsExclusive, at4A, at4, State.resetWith, Params.standard], by decide⟩
theorem witness_DebugFlagHasTwoWriters : steps (at4 0x90) = true := by decide
theorem witness_HaltIsOneWay :
    steps { at4 0 with halt := true } = true ∧ steps (at4 0xF0) = true := by decide
theorem witness_FatalErrorIsPrecise :
    (at4 0xA0).status = .running ∧ (at4 0xA0).halt = false ∧ (at4 0xA0).err = none ∧
    endOf (at4 0xA0) = some (.errored, some .invalidOpcode, false, 4) := by decide
theorem witness_RunEndsOnlyByHltOrFatalError :
    (at4 0xF0).status = .running ∧ (at4 0xF0).halt = false ∧ (at4 0xF0).err = none ∧
    steps (at4 0xF0) = true := by decide

/-- The default parameters but for `A_RESET = Value 3`. -/
def valueReset : Params := { Params.standard with aReset := .value 3 }

theorem witness_NoAccumulatorFaultWithValueAtReset :
    ({ at4 0x23 with params := valueReset, acc := .value (3#4).toNat, log := [.start] } :
      State).Inv ∧
    valueReset.accBound = .unbounded ∧ valueReset.aReset ≠ .unset ∧
    steps { at4 0x23 with params := valueReset, acc := .value (3#4).toNat, log := [.start] } =
      true :=
  ⟨at4_inv _ _ _ (by decide) rfl rfl, by decide, by decide, by decide⟩

/-- A run of one HLT ends in one step. -/
theorem witness_EndedRunHasItsOutcome :
    Params.standard.wellFormed = true ∧ Memory.wf { words := [(0, 0xF0)], invalid := [] } ∧
    ∃ t, EndsIn (State.resetWith Params.standard { words := [(0, 0xF0)], invalid := [] }) t :=
  ⟨by decide, by decide, _, 1, rfl, by decide⟩
theorem witness_RunPastTheArrayNeverEnds :
    let s : State := { at4 0 with pc := 16 }
    s.status = .running ∧ s.halt = false ∧ s.params.pcBound = .unbounded ∧ 16 ≤ s.pc ∧
    ∃ t, Reaches 1 s t :=
  ⟨by decide, by decide, by decide, by decide, _, rfl⟩
theorem witness_JumpToItselfNeverEnds :
    (at4 0x64).status = .running ∧ (at4 0x64).halt = false ∧
    (at4 0x64).mem.read (at4 0x64).pc = .word 0x64 ∧ decodeWord 0x64#8 = .ok (.jmp 4) ∧
    (4#4).toNat = (at4 0x64).pc ∧ ∃ t, Reaches 1 (at4 0x64) t :=
  ⟨by decide, by decide, by decide, by decide, by decide, _, rfl⟩

/-- Two states that differ in the low bits of the data word in cell 4 alone. -/
theorem witness_DataWordLowBitsAreInvisible :
    sameButData (at4 0x07) (at4 0x0F) ∧ ∃ t, Reaches 1 (at4 0x07) t := by
  refine ⟨⟨rfl, fun a => ?_⟩, _, rfl⟩
  by_cases h : a = 4
  · subst h
    exact .inr ⟨0x07, 0x0F, by decide, by decide, by decide, by decide⟩
  · left
    simp [at4, State.resetWith, Memory.read, lookupWord, h]

end Sys2Proof.Tests
end

section
/-! PROOFS. The statements of 00_scope.md: what reading the unset A does (R11), and that the parameters
never change (R6). -/

namespace Sys2Proof.Machine

/-! ### The four instructions that read A -/

/-- ADD, SUB, STA and OUT each begin with the read of A: all their effects lie in its continuation. -/
theorem exec_eq_withAcc {i : Instr} {imm : Nibble} (s : State)
    (hi : i ∈ [Instr.add imm, .sub imm, .sta imm, .out]) :
    ∃ go, exec i s = .next (s.withAcc go) := by
  simp only [List.mem_cons, List.not_mem_nil, or_false] at hi
  obtain rfl | rfl | rfl | rfl := hi
  · exact ⟨_, rfl⟩
  · exact ⟨_, rfl⟩
  · exact ⟨_, rfl⟩
  · exact ⟨_, rfl⟩

/-! ### What a step does to the parameters: nothing, in each of its phases -/

variable {s t : State}

/-- A read of A keeps the parameters where its continuation does; the fatal read always does. -/
theorem withAcc_params {go : Int → State} (hgo : ∀ a, (go a).params = s.params) :
    (s.withAcc go).params = s.params := by
  obtain ⟨-, hfatal⟩ | ⟨a, -, hvalue⟩ := withAcc_cases s go
  · rw [hfatal, raiseFatal_params]
  · rw [hvalue, hgo]

@[simp] theorem jumpIf_params (taken : Bool) (imm : Nibble) :
    (jumpIf taken imm s).params = s.params := by
  cases taken <;> rfl

@[simp] theorem loadHighNibble_params (c : CellValue) :
    (loadHighNibble s c).params = s.params := by
  cases c <;> rfl

/-- The execute stage of every instruction keeps the parameters. -/
theorem exec_params {i : Instr} (h : exec i s = .next t) : t.params = s.params := by
  cases i with
  | nop => cases h; rfl
  | lda imm => cases h; exact loadHighNibble_params _
  | add imm => cases h; exact withAcc_params fun a => by simp
  | sub imm =>
    cases h
    refine withAcc_params fun a => ?_
    dsimp only
    split
    · simp
    · exact raiseFatal_params _ _
  | sta imm => cases h; exact withAcc_params fun a => store_params _ _ _
  | ldi imm => cases h; exact (trace_params _ _).trans (setAcc_params _ _)
  | jmp imm => cases h; exact jumpIf_params _ _
  | jc imm => cases h; exact jumpIf_params _ _
  | jz imm => cases h; exact jumpIf_params _ _
  | debug => cases h; rfl
  | out => cases h; exact withAcc_params fun a => emit_params _ _
  | hlt => cases h; rfl

/-- The fetch and the execute stage keep the parameters, whatever the fetched cell holds. -/
theorem fetchExecute_params (h : fetchExecute s = .next t) : t.params = s.params := by
  obtain ⟨-, he⟩ | ⟨-, he⟩ | ⟨w, -, he⟩ := fetchExecute_cases s <;> rw [he] at h
  · cases h; rfl
  · cases h; rfl
  · obtain ⟨i, -, hi⟩ | ⟨op, -, hi⟩ := executeWord_cases s w <;> rw [hi] at h
    · exact exec_params h
    · cases h; rfl

variable (s)

@[simp] theorem pausePhase_params : (pausePhase s).params = s.params := by rw [pausePhase_eq]

@[simp] theorem warnPhase_params : (warnPhase s).params = s.params := by
  obtain ⟨-, h⟩ | ⟨-, -, h⟩ | ⟨-, -, -, h⟩ | ⟨-, -, -, h⟩ := warnPhase_cases s <;> rw [h]

@[simp] theorem endPhase_params : (endPhase s).params = s.params := by
  obtain ⟨-, h⟩ | ⟨-, -, h⟩ | ⟨-, -, h⟩ := endPhase_cases s <;> rw [h]

@[simp] theorem postCycle_params : (postCycle s).params = s.params := by simp [postCycle]

variable {s}

/-- A step that has a next state is a cycle of a running core: the execute stage had a next state, and
the post-cycle phase followed it. -/
theorem step_next (h : step s = .next t) :
    s.status = .running ∧ ∃ u, fetchExecute (beginCycle s) = .next u ∧ t = postCycle u := by
  unfold step at h
  split at h
  · exact ⟨‹_›, runCycle_next s h⟩
  · cases h
  · cases h

/-- No step changes the parameters. -/
theorem step_params (h : step s = .next t) : t.params = s.params := by
  obtain ⟨-, u, hexec, rfl⟩ := step_next h
  calc (postCycle u).params = u.params := postCycle_params u
    _ = (beginCycle s).params := fetchExecute_params hexec
    _ = s.params := beginCycle_params s

end Sys2Proof.Machine

namespace Sys2Proof

open Sys2Proof.Machine

/-- Settles O16: each of the four readers goes through `State.withAcc`, which raises
`Fatal(UnsetAccumulator)` and abandons the rest of the execute stage. -/
theorem readingTheUnsetAccumulatorIsFatal : Obligations.ReadingTheUnsetAccumulatorIsFatal := by
  intro i imm s hacc hi
  obtain ⟨go, hexec⟩ := exec_eq_withAcc s hi
  rw [hexec, withAcc_unset go hacc]
  rfl

/-- Settles O42: every phase of the cycle keeps the parameters (`step_params`). -/
theorem stepKeepsTheParameters : Obligations.StepKeepsTheParameters :=
  fun _ _ h => step_params h

end Sys2Proof
end

section
/-! PROOFS. The statements of 10_state.md: the reset values (R37), what the execute stage leaves
unchanged (R22, R28 to R31), the PC, DBG and HALT over a cycle (R27, R30, R31), and the invariant of
the core (R21, R25, R31 to R35). -/

namespace Sys2Proof.Machine

/-! ### What the execute stage can do -/

/-- The states that the execute stage of an instruction can answer with from `s`: a fatal error, or the
instruction's own writes. It bounds `exec` from above (`exec_executed`): which causes an instruction can
raise, and which word it stores, are left open. -/
inductive Executed (s : State) : Instr → State → Prop where
  | fatal (i : Instr) (r : Cause) : Executed s i (s.raiseFatal r)
  | nop : Executed s .nop s
  | lda (imm v : Nibble) : Executed s (.lda imm) (s.setAcc v.toNat)
  | add (imm : Nibble) (a : Int) (hacc : s.acc = .value a) : Executed s (.add imm)
      (((s.setFlags (addCarry (a + immValue imm)) (addZero (a + immValue imm))).trace
        (.traceAdd a imm)).setAcc (addResult s.params (a + immValue imm)))
  | sub (imm : Nibble) (a : Int) (hacc : s.acc = .value a)
      (hrange : accInRange s.params.accBound (a - immValue imm) = true) : Executed s (.sub imm)
      (((s.setFlags (subBorrow (a - immValue imm)) (subZero (a - immValue imm))).trace
        (.traceSub a imm)).setAcc (a - immValue imm))
  | sta (imm : Nibble) (w : Word) : Executed s (.sta imm) (s.store imm w)
  | ldi (imm : Nibble) : Executed s (.ldi imm) ((s.setAcc (immValue imm)).trace (.traceLdi imm))
  | jmp (imm : Nibble) : Executed s (.jmp imm) (jumpIf true imm s)
  | jc (imm : Nibble) : Executed s (.jc imm) (jumpIf s.cf imm s)
  | jz (imm : Nibble) : Executed s (.jz imm) (jumpIf s.zf imm s)
  | debug : Executed s .debug (({ s with dbg := !s.dbg } : State).emit (.debugState (!s.dbg)))
  | out (a : Int) : Executed s .out (s.emit (.out a))
  | hlt : Executed s .hlt { s with halt := true }

section

variable {s t : State} {i : Instr}

/-- An instruction that reads A is covered when its continuation is: the read itself may be fatal. -/
theorem executed_withAcc {go : Int → State}
    (hgo : ∀ a, s.acc = .value a → Executed s i (go a)) : Executed s i (s.withAcc go) := by
  obtain ⟨-, hfatal⟩ | ⟨a, hacc, hvalue⟩ := withAcc_cases s go
  · rw [hfatal]
    exact .fatal i _
  · rw [hvalue]
    exact hgo a hacc

theorem executed_loadHighNibble (imm : Nibble) (c : CellValue) :
    Executed s (.lda imm) (loadHighNibble s c) := by
  cases c with
  | empty => exact .fatal _ _
  | invalid => exact .fatal _ _
  | word v => exact .lda imm (opField v)

/-- Everything the execute stage of an instruction can do. -/
theorem exec_executed (h : exec i s = .next t) : Executed s i t := by
  cases i with
  | nop => cases h; exact .nop
  | lda imm => cases h; exact executed_loadHighNibble imm _
  | add imm => cases h; exact executed_withAcc fun a hacc => .add imm a hacc
  | sub imm =>
    cases h
    refine executed_withAcc fun a hacc => ?_
    dsimp only
    split
    · exact .sub imm a hacc ‹_›
    · exact .fatal _ _
  | sta imm => cases h; exact executed_withAcc fun a _ => .sta imm _
  | ldi imm => cases h; exact .ldi imm
  | jmp imm => cases h; exact .jmp imm
  | jc imm => cases h; exact .jc imm
  | jz imm => cases h; exact .jz imm
  | debug => cases h; exact .debug
  | out => cases h; exact executed_withAcc fun a _ => .out a
  | hlt => cases h; exact .hlt

/-- The execute stage of every instruction answers a next state. -/
theorem exec_next (i : Instr) (s : State) : ∃ t, exec i s = .next t := by
  cases i <;> exact ⟨_, rfl⟩

end

/-! ### A jump that may be taken writes pc and jumped alone -/

section

variable (taken : Bool) (imm : Nibble) (s : State)

@[simp] theorem jumpIf_mem : (jumpIf taken imm s).mem = s.mem := by cases taken <;> rfl
@[simp] theorem jumpIf_acc : (jumpIf taken imm s).acc = s.acc := by cases taken <;> rfl
@[simp] theorem jumpIf_cf : (jumpIf taken imm s).cf = s.cf := by cases taken <;> rfl
@[simp] theorem jumpIf_zf : (jumpIf taken imm s).zf = s.zf := by cases taken <;> rfl
@[simp] theorem jumpIf_dbg : (jumpIf taken imm s).dbg = s.dbg := by cases taken <;> rfl
@[simp] theorem jumpIf_halt : (jumpIf taken imm s).halt = s.halt := by cases taken <;> rfl
@[simp] theorem jumpIf_status : (jumpIf taken imm s).status = s.status := by cases taken <;> rfl
@[simp] theorem jumpIf_err : (jumpIf taken imm s).err = s.err := by cases taken <;> rfl
@[simp] theorem jumpIf_log : (jumpIf taken imm s).log = s.log := by cases taken <;> rfl
@[simp] theorem jumpIf_started : (jumpIf taken imm s).started = s.started := by cases taken <;> rfl
@[simp] theorem jumpIf_pc :
    (jumpIf taken imm s).pc = if taken then imm.toNat else s.pc := by cases taken <;> rfl
@[simp] theorem jumpIf_jumped :
    (jumpIf taken imm s).jumped = (taken || s.jumped) := by cases taken <;> rfl

end

/-! ### The frame of the execute stage, field by field -/

section

variable {s t : State} {i : Instr}

theorem exec_status (h : exec i s = .next t) : t.status = s.status := by
  cases exec_executed h <;> simp

theorem exec_started (h : exec i s = .next t) : t.started = s.started := by
  cases exec_executed h <;> simp

theorem exec_mem (h : exec i s = .next t) (hi : ∀ x, i ≠ .sta x) : t.mem = s.mem := by
  cases exec_executed h with
  | sta imm w => exact absurd rfl (hi imm)
  | _ => simp

theorem exec_acc (h : exec i s = .next t)
    (hi : ∀ x, i ≠ .lda x ∧ i ≠ .add x ∧ i ≠ .sub x ∧ i ≠ .ldi x) : t.acc = s.acc := by
  cases exec_executed h with
  | lda imm v => exact absurd rfl (hi imm).1
  | add imm a => exact absurd rfl (hi imm).2.1
  | sub imm a => exact absurd rfl (hi imm).2.2.1
  | ldi imm => exact absurd rfl (hi imm).2.2.2
  | _ => simp

theorem exec_flags (h : exec i s = .next t) (hi : ∀ x, i ≠ .add x ∧ i ≠ .sub x) :
    t.cf = s.cf ∧ t.zf = s.zf := by
  cases exec_executed h with
  | add imm a => exact absurd rfl (hi imm).1
  | sub imm a => exact absurd rfl (hi imm).2
  | _ => simp

theorem exec_dbg (h : exec i s = .next t) (hi : i ≠ .debug) : t.dbg = s.dbg := by
  cases exec_executed h with
  | debug => exact absurd rfl hi
  | _ => simp

theorem exec_pc_jumped (h : exec i s = .next t)
    (hi : ∀ x, i ≠ .jmp x ∧ i ≠ .jc x ∧ i ≠ .jz x) : t.pc = s.pc ∧ t.jumped = s.jumped := by
  cases exec_executed h with
  | jmp imm => exact absurd rfl (hi imm).1
  | jc imm => exact absurd rfl (hi imm).2.1
  | jz imm => exact absurd rfl (hi imm).2.2
  | _ => simp

/-- The execute stage writes err and HALT by a fatal error, and HALT by HLT, and not otherwise. -/
theorem exec_err_halt (h : exec i s = .next t) :
    (t.err = s.err ∧ (i ≠ .hlt → t.halt = s.halt)) ∨ ∃ r, t = s.raiseFatal r := by
  cases exec_executed h with
  | fatal i r => exact .inr ⟨r, rfl⟩
  | hlt => exact .inl ⟨rfl, fun hne => absurd rfl hne⟩
  | _ => left; simp

theorem exec_debug_dbg (h : exec .debug s = .next t) : t.dbg = !s.dbg := by
  cases h; rfl

/-- The execute stage never clears HALT. -/
theorem exec_halt_mono (h : exec i s = .next t) (hs : s.halt = true) : t.halt = true := by
  cases exec_executed h <;> simp [hs]

end

/-! ### The fetch and the execute stage -/

/-- DBG after the fetch of a cell and the execute stage (R30); `fetchExecute_dbg` ties it to the
model. -/
def dbgAfterFetch (dbg : Bool) : CellValue → Bool
  | .empty => true
  | .invalid => dbg
  | .word w => if decodeWord w = .ok .debug then !dbg else dbg

section

variable {s t : State}

/-- Everything the fetch and the execute stage can do. -/
theorem fetchExecute_next (h : fetchExecute s = .next t) :
    (s.mem.read s.pc = .empty ∧ t = emptyFetch s) ∨
    (s.mem.read s.pc = .invalid ∧ t = s.raiseFatal .malformedWord) ∨
    (∃ w op, s.mem.read s.pc = .word w ∧ decodeWord w = .error (.invalidOpcode op) ∧
      t = s.raiseFatal .invalidOpcode) ∨
    ∃ w i, s.mem.read s.pc = .word w ∧ decodeWord w = .ok i ∧ exec i s = .next t := by
  obtain ⟨hread, he⟩ | ⟨hread, he⟩ | ⟨w, hread, he⟩ := fetchExecute_cases s <;> rw [he] at h
  · cases h
    exact .inl ⟨hread, rfl⟩
  · cases h
    exact .inr (.inl ⟨hread, rfl⟩)
  · obtain ⟨i, hdecode, hi⟩ | ⟨op, hdecode, hi⟩ := executeWord_cases s w <;> rw [hi] at h
    · exact .inr (.inr (.inr ⟨w, i, hread, hdecode, h⟩))
    · cases h
      exact .inr (.inr (.inl ⟨w, op, hread, hdecode, rfl⟩))

/-- The fetch and the execute stage always answer a next state. -/
theorem fetchExecute_total (s : State) : ∃ t, fetchExecute s = .next t := by
  obtain ⟨-, he⟩ | ⟨-, he⟩ | ⟨w, -, he⟩ := fetchExecute_cases s
  · exact ⟨_, he⟩
  · exact ⟨_, he⟩
  · obtain ⟨i, -, hi⟩ | ⟨op, -, hi⟩ := executeWord_cases s w
    · obtain ⟨t, ht⟩ := exec_next i s
      exact ⟨t, he.trans (hi.trans ht)⟩
    · exact ⟨_, he.trans hi⟩

theorem fetchExecute_halt_mono (h : fetchExecute s = .next t) (hs : s.halt = true) :
    t.halt = true := by
  obtain ⟨-, rfl⟩ | ⟨-, rfl⟩ | ⟨w, op, -, -, rfl⟩ | ⟨w, i, -, -, hexec⟩ := fetchExecute_next h
  · exact hs
  · rfl
  · rfl
  · exact exec_halt_mono hexec hs

theorem fetchExecute_dbg (h : fetchExecute s = .next t) :
    t.dbg = dbgAfterFetch s.dbg (s.mem.read s.pc) := by
  obtain ⟨hread, rfl⟩ | ⟨hread, rfl⟩ | ⟨w, op, hread, hdecode, rfl⟩ | ⟨w, i, hread, hdecode, hexec⟩ :=
    fetchExecute_next h <;> rw [hread]
  · rfl
  · rfl
  · simp [dbgAfterFetch, hdecode]
  · by_cases hi : i = .debug
    · subst hi
      simp [dbgAfterFetch, hdecode, exec_debug_dbg hexec]
    · simp [dbgAfterFetch, hdecode, hi, exec_dbg hexec hi]

end

/-! ### The post-cycle phase -/

section

variable (s : State)

/-- The pause and the warnings write the log and the flag warned about. -/
theorem warnPhase_pausePhase_eq :
    warnPhase (pausePhase s) = { s with
      cf := s.cf && !s.dbg
      zf := s.zf && !(s.dbg && !s.cf)
      log := s.log ++ postEvents s } := by
  rw [pausePhase_eq]
  cases hd : s.dbg
  · simp [warnPhase, postEvents, hd]
  · cases hc : s.cf <;> cases hz : s.zf <;> simp [warnPhase, postEvents, State.emit, hd, hc, hz]

/-- The whole post-cycle phase: the warnings, then the halt check, else the PC advance. -/
theorem postCycle_eq :
    postCycle s = { s with
      cf := s.cf && !s.dbg
      zf := s.zf && !(s.dbg && !s.cf)
      log := s.log ++ postEvents s ++ (if s.halt then [.haltNotice] else [])
      status := if s.halt then endStatus s.err else s.status
      pc := if s.halt || s.jumped then s.pc else nextPc s.params.pcBound s.pc } := by
  rw [postCycle, warnPhase_pausePhase_eq]
  cases s.halt <;> cases s.jumped <;> simp [endPhase, State.emit]

@[simp] theorem postCycle_mem : (postCycle s).mem = s.mem := by rw [postCycle_eq]
@[simp] theorem postCycle_acc : (postCycle s).acc = s.acc := by rw [postCycle_eq]
@[simp] theorem postCycle_dbg : (postCycle s).dbg = s.dbg := by rw [postCycle_eq]
@[simp] theorem postCycle_halt : (postCycle s).halt = s.halt := by rw [postCycle_eq]
@[simp] theorem postCycle_err : (postCycle s).err = s.err := by rw [postCycle_eq]
@[simp] theorem postCycle_started : (postCycle s).started = s.started := by rw [postCycle_eq]
@[simp] theorem postCycle_log :
    (postCycle s).log = s.log ++ postEvents s ++ (if s.halt then [.haltNotice] else []) := by
  rw [postCycle_eq]
@[simp] theorem postCycle_status :
    (postCycle s).status = if s.halt then endStatus s.err else s.status := by rw [postCycle_eq]
@[simp] theorem postCycle_pc :
    (postCycle s).pc =
      if s.halt || s.jumped then s.pc else nextPc s.params.pcBound s.pc := by rw [postCycle_eq]

/-- The halt check always ends the run. -/
theorem endStatus_ne_running (e : Option Cause) : endStatus e ≠ .running := by
  cases e <;> simp

/-- A running core always completes its cycle. -/
theorem step_next_of_running (hs : s.status = .running) :
    ∃ u, fetchExecute (beginCycle s) = .next u ∧ step s = .next (postCycle u) := by
  obtain ⟨u, hu⟩ := fetchExecute_total (beginCycle s)
  exact ⟨u, hu, by rw [step_of_running s hs, runCycle, hu, finishCycle]⟩

end

/-! ### The jump a cycle takes -/

/-- The target of the jump that the execute stage of an instruction takes, if it takes one (R150 to
R152). -/
def jumpTarget (s : State) : Instr → Option Nat
  | .jmp imm => some imm.toNat
  | .jc imm => if s.cf then some imm.toNat else none
  | .jz imm => if s.zf then some imm.toNat else none
  | _ => none

section

variable {s t : State}

theorem takenTarget_of_decode {w : Word} {i : Instr} (hread : s.mem.read s.pc = .word w)
    (hdecode : decodeWord w = .ok i) : takenTarget s = jumpTarget s i := by
  unfold takenTarget
  simp only [hread, hdecode]
  cases i <;> rfl

theorem takenTarget_of_empty (hread : s.mem.read s.pc = .empty) : takenTarget s = none := by
  simp [takenTarget, hread]

/-- The start of the cycle changes nothing that selects the jump. -/
@[simp] theorem takenTarget_beginCycle (s : State) : takenTarget (beginCycle s) = takenTarget s := by
  simp [takenTarget]

/-- The execute stage takes its jump or leaves pc and `jumped`, and keeps HALT; or it sets HALT and keeps
the pc. -/
theorem exec_jump {i : Instr} (h : exec i s = .next t) :
    (t.halt = s.halt ∧ t.pc = (jumpTarget s i).getD s.pc ∧
      t.jumped = ((jumpTarget s i).isSome || s.jumped)) ∨ (t.halt = true ∧ t.pc = s.pc) := by
  cases exec_executed h with
  | fatal i r => exact .inr ⟨rfl, rfl⟩
  | hlt => exact .inr ⟨rfl, rfl⟩
  | jc imm => left; cases hc : s.cf <;> simp [jumpTarget, hc]
  | jz imm => left; cases hz : s.zf <;> simp [jumpTarget, hz]
  | _ => left; simp [jumpTarget]

/-- `exec_jump` for the fetch and the execute stage together. -/
theorem fetchExecute_jump (h : fetchExecute s = .next t) :
    (t.halt = s.halt ∧ t.pc = (takenTarget s).getD s.pc ∧
      t.jumped = ((takenTarget s).isSome || s.jumped)) ∨ (t.halt = true ∧ t.pc = s.pc) := by
  obtain ⟨hread, rfl⟩ | ⟨-, rfl⟩ | ⟨w, op, -, -, rfl⟩ | ⟨w, i, hread, hdecode, hexec⟩ :=
    fetchExecute_next h
  · left
    simp [emptyFetch, takenTarget_of_empty hread]
  · exact .inr ⟨rfl, rfl⟩
  · exact .inr ⟨rfl, rfl⟩
  · rw [takenTarget_of_decode hread hdecode]
    exact exec_jump hexec

end

/-! ### The ranges of A and of the pc (R21, R25) -/

section

variable {p : Params} {b : AccBound}

theorem accInRange_mono {d e : Int} (hd : accInRange b d = true) (hde : d ≤ e) :
    accInRange b e = true := by
  cases b with
  | unbounded => rfl
  | signed w => exact (accInRange_signed w e).2 (((accInRange_signed w d).1 hd).trans hde)

theorem accInRange_of_nonneg (b : AccBound) {d : Int} (hd : 0 ≤ d) : accInRange b d = true := by
  cases b with
  | unbounded => rfl
  | signed w =>
    have hpow : (0 : Int) ≤ 2 ^ (w - 1) := by positivity
    exact (accInRange_signed w d).2 (by omega)

/-- A four-bit value is admitted in A under every `ACC_BOUND`. -/
theorem accAdmitted_nominal (p : Params) {v : Int} (h0 : 0 ≤ v) (h15 : v ≤ 15) :
    accAdmitted p (.value v) := ⟨h15, accInRange_of_nonneg _ h0⟩

/-- ADD stores an admitted value: the sum is no less than A, and the carry path gives four bits. -/
theorem accAdmitted_addResult {a : Int} (imm : Nibble) (ha : accAdmitted p (.value a)) :
    accAdmitted p (.value (addResult p (a + immValue imm))) := by
  obtain ⟨-, hrange⟩ := ha
  have himm := immValue_nonneg imm
  unfold addResult
  split
  · obtain ⟨h0, h15⟩ := addCarryTrunc_bounds p (a + immValue imm)
    exact accAdmitted_nominal p h0 h15
  · rename_i hcarry
    have hsum : a + immValue imm ≤ 15 := by simpa [addCarry] using hcarry
    exact ⟨hsum, accInRange_mono hrange (by omega)⟩

/-- SUB stores an admitted value where `ACC_BOUND` admits the difference, which is no more than A. -/
theorem accAdmitted_sub {a : Int} (imm : Nibble) (ha : accAdmitted p (.value a))
    (hrange : accInRange p.accBound (a - immValue imm) = true) :
    accAdmitted p (.value (a - immValue imm)) := by
  obtain ⟨h15, -⟩ := ha
  have himm := immValue_nonneg imm
  exact ⟨by omega, hrange⟩

theorem pcAdmitted_nextPc (b : PcBound) (pc : Nat) : pcAdmitted b (nextPc b pc) := by
  cases b with
  | unbounded => trivial
  | wrap w => exact Nat.mod_lt _ (by positivity)

/-- Every cell has an address within a well-formed `PC_BOUND`. -/
theorem pcAdmitted_of_lt {b : PcBound} {pc : Nat} (hb : b.wellFormed = true) (hpc : pc < 16) :
    pcAdmitted b pc := by
  cases b with
  | unbounded => trivial
  | wrap w =>
    have hw : 4 ≤ w := by simpa [PcBound.wellFormed] using hb
    calc pc < 2 ^ 4 := hpc
      _ ≤ 2 ^ w := Nat.pow_le_pow_right (by decide) hw

theorem pcBound_wellFormed (h : p.wellFormed = true) : p.pcBound.wellFormed = true := by
  simp only [Params.wellFormed, Bool.and_eq_true] at h
  exact h.2

end

/-! ### The invariant at reset -/

theorem resetWith_inv {p : Params} {m : Memory} (hp : p.wellFormed = true) (hm : m.wf) :
    (State.resetWith p m).Inv where
  params_ok := hp
  mem_ok := hm
  acc_ok := by
    show accAdmitted p (AReset.initial p.aReset)
    cases hreset : p.aReset with
    | unset => exact hreset
    | value v =>
      have hv := v.isLt
      exact accAdmitted_nominal p (by omega) (by omega)
  pc_ok := pcAdmitted_of_lt (pcBound_wellFormed hp) (pc := 0) (by decide)
  status_ok := ⟨rfl, rfl⟩
  log_ok := ⟨fun _ => ⟨rfl, rfl⟩, nofun, fun hstatus => absurd rfl hstatus⟩

/-! ### The invariant inside a cycle -/

/-- What holds between the start of a cycle and its post-cycle phase, where an error reason may already
stand but the status is still Running. -/
structure CycleInv (s : State) : Prop where
  params_ok : s.params.wellFormed = true
  mem_ok : s.mem.wf
  acc_ok : accAdmitted s.params s.acc
  pc_ok : pcAdmitted s.params.pcBound s.pc
  running : s.status = .running
  err_ok : s.halt = false → s.err = none
  started : s.started = true
  start_first : s.log.head? = some .start

/-- The start of a cycle establishes the invariant of the cycle. -/
theorem beginCycle_cycleInv {s : State} (h : s.Inv) (hs : s.status = .running) :
    CycleInv (beginCycle s) := by
  obtain ⟨hparams, hmem, hacc, hpc, hstatus, hfresh, hlog, -⟩ := h
  rw [hs] at hstatus
  refine ⟨by simpa, by simpa, by simpa, by simpa, by simpa, fun _ => by simpa using hstatus.2,
    by simp, ?_⟩
  cases hstarted : s.started with
  | false => simp [hstarted, (hfresh hstarted).1]
  | true => simp [hstarted, hlog hstarted]

namespace CycleInv

variable {s t : State}

theorem emit (h : CycleInv s) (e : Event) : CycleInv (s.emit e) :=
  { h with start_first := by simp [h.start_first] }

theorem trace (h : CycleInv s) (e : Event) : CycleInv (s.trace e) := by
  rw [trace_eq]
  split
  · exact h.emit e
  · exact h

theorem setAcc (h : CycleInv s) {v : Int} (hv : accAdmitted s.params (.value v)) :
    CycleInv (s.setAcc v) := { h with acc_ok := hv }

theorem setFlags (h : CycleInv s) (c z : Bool) : CycleInv (s.setFlags c z) := { h with }

theorem setDbg (h : CycleInv s) (b : Bool) : CycleInv { s with dbg := b } := { h with }

theorem setHalt (h : CycleInv s) : CycleInv { s with halt := true } := { h with err_ok := nofun }

theorem store (h : CycleInv s) (a : Nibble) (w : Word) : CycleInv (s.store a w) :=
  { h with mem_ok := write_wf a w h.mem_ok }

theorem raiseFatal (h : CycleInv s) (r : Cause) : CycleInv (s.raiseFatal r) :=
  { h with err_ok := nofun, start_first := by simp [h.start_first] }

theorem jumpIf (h : CycleInv s) (taken : Bool) (imm : Nibble) :
    CycleInv (Machine.jumpIf taken imm s) := by
  cases taken with
  | false => exact h
  | true =>
    exact { h with
      pc_ok := pcAdmitted_of_lt (pcBound_wellFormed h.params_ok) (cellAddress_lt imm) }

/-- Every instruction keeps the invariant of the cycle. -/
theorem exec (h : CycleInv s) {i : Instr} (hexec : Machine.exec i s = .next t) : CycleInv t := by
  cases exec_executed hexec with
  | fatal i r => exact h.raiseFatal r
  | nop => exact h
  | lda imm v =>
    have hv := v.isLt
    exact h.setAcc (accAdmitted_nominal _ (by omega) (by omega))
  | add imm a hacc =>
    have ha : accAdmitted s.params (.value a) := hacc ▸ h.acc_ok
    exact ((h.setFlags _ _).trace _).setAcc (by simpa using accAdmitted_addResult imm ha)
  | sub imm a hacc hrange =>
    have ha : accAdmitted s.params (.value a) := hacc ▸ h.acc_ok
    exact ((h.setFlags _ _).trace _).setAcc (by simpa using accAdmitted_sub imm ha hrange)
  | sta imm w => exact h.store imm w
  | ldi imm =>
    exact (h.setAcc (accAdmitted_nominal _ (immValue_nonneg imm) (immValue_le imm))).trace _
  | jmp imm => exact h.jumpIf true imm
  | jc imm => exact h.jumpIf s.cf imm
  | jz imm => exact h.jumpIf s.zf imm
  | debug => exact (h.setDbg _).emit _
  | out a => exact h.emit _
  | hlt => exact h.setHalt

/-- The fetch and the execute stage keep the invariant of the cycle. -/
theorem fetchExecute (h : CycleInv s) (hnext : Machine.fetchExecute s = .next t) : CycleInv t := by
  obtain ⟨-, rfl⟩ | ⟨-, rfl⟩ | ⟨w, op, -, -, rfl⟩ | ⟨w, i, -, -, hexec⟩ := fetchExecute_next hnext
  · exact h.setDbg true
  · exact h.raiseFatal _
  · exact h.raiseFatal _
  · exact h.exec hexec

theorem postCycle_pc_ok (h : CycleInv s) :
    pcAdmitted (postCycle s).params.pcBound (postCycle s).pc := by
  rw [postCycle_params, postCycle_pc]
  split
  · exact h.pc_ok
  · exact pcAdmitted_nextPc _ _

/-- The halt check sets the status that HALT and err ask for. -/
theorem postCycle_status_ok (h : CycleInv s) :
    statusAdmitted (postCycle s).status (postCycle s).halt (postCycle s).err := by
  rw [postCycle_status, postCycle_halt, postCycle_err]
  cases hhalt : s.halt with
  | false => simpa [h.running, statusAdmitted] using h.err_ok hhalt
  | true => cases s.err <;> simp [statusAdmitted]

/-- `Start` stays first, and the halt check that ends the run emits `HaltNotice` last. -/
theorem postCycle_log_ok (h : CycleInv s) : logAdmitted (postCycle s) := by
  refine ⟨fun hstarted => ?_, fun _ => ?_, fun hended => ?_⟩
  · simp [h.started] at hstarted
  · simp [h.start_first]
  · have hhalt : s.halt = true := by
      by_contra hhalt
      exact hended (by simp [hhalt, h.running])
    simp [hhalt]

/-- The post-cycle phase leads from the invariant of the cycle to that of the core. -/
theorem postCycle_inv (h : CycleInv s) : (postCycle s).Inv where
  params_ok := by simpa using h.params_ok
  mem_ok := by simpa using h.mem_ok
  acc_ok := by simpa using h.acc_ok
  pc_ok := h.postCycle_pc_ok
  status_ok := h.postCycle_status_ok
  log_ok := h.postCycle_log_ok

end CycleInv

end Sys2Proof.Machine

namespace Sys2Proof

open Sys2Proof.Machine

/-- Settles O40: the start of the cycle, the execute stage and the post-cycle phase carry the invariant
through `CycleInv`. -/
theorem stepKeepsTheInvariant : Obligations.StepKeepsTheInvariant := by
  intro s t hinv hstep
  obtain ⟨hrunning, u, hexec, rfl⟩ := step_next hstep
  exact ((beginCycle_cycleInv hinv hrunning).fetchExecute hexec).postCycle_inv

/-- Settles O22: the frame of the execute stage, one lemma for each field. -/
theorem executeStageFrame : Obligations.ExecuteStageFrame := fun _ _ _ h =>
  ⟨exec_status h, exec_params h, exec_started h, fun hi a => by rw [exec_mem h hi], exec_acc h,
    exec_flags h, exec_dbg h, exec_pc_jumped h, exec_err_halt h⟩

/-- Settles O29: before the post-cycle phase the jump was taken or pc kept (`fetchExecute_jump`), and
the post-cycle phase advances the pc where neither HALT nor `jumped` is set. -/
theorem pcAdvancesUnlessJumpOrHalt : Obligations.PcAdvancesUnlessJumpOrHalt := by
  intro s hrunning hhalt hbound
  obtain ⟨u, hexec, hstep⟩ := step_next_of_running s hrunning
  have hparams : u.params.pcBound = .unbounded := by
    rw [fetchExecute_params hexec, beginCycle_params, hbound]
  refine ⟨postCycle u, hstep, ?_⟩
  obtain ⟨hkept, hpc, hjumped⟩ | ⟨hset, hpc⟩ := fetchExecute_jump hexec
  · simp only [beginCycle_halt, hhalt, beginCycle_pc, beginCycle_jumped, takenTarget_beginCycle]
      at hkept hpc hjumped
    cases htarget : takenTarget s <;> simp [hkept, hpc, hjumped, htarget, hparams]
  · simp [hset, hpc]

/-- Settles O46: the fetch and the execute stage write DBG as stated, and the post-cycle phase keeps
it. -/
theorem debugFlagHasTwoWriters : Obligations.DebugFlagHasTwoWriters := by
  intro s t hstep
  obtain ⟨-, u, hexec, rfl⟩ := step_next hstep
  rw [postCycle_dbg, fetchExecute_dbg hexec, beginCycle_dbg, beginCycle_mem, beginCycle_pc]
  rfl

/-- Settles O47: no stage clears HALT, and the halt check ends the run where it is set. -/
theorem haltIsOneWay : Obligations.HaltIsOneWay := by
  intro s t hstep
  obtain ⟨-, u, hexec, rfl⟩ := step_next hstep
  rw [postCycle_halt, postCycle_status]
  refine ⟨fun hs => fetchExecute_halt_mono hexec (by simpa using hs), fun hu => ?_⟩
  simpa [hu] using endStatus_ne_running u.err

/-- Settles O33: `State.resetWith` and `AReset.initial` read off, and every cell of the blank image is
`Empty`. -/
theorem resetValues : Obligations.ResetValues := by
  refine ⟨fun p m => ?_, rfl, fun a => read_blank a, rfl, rfl, rfl, rfl⟩
  refine ⟨rfl, rfl, rfl, rfl, rfl, rfl, rfl, rfl, rfl, rfl, fun hreset => ?_, fun v hreset => ?_⟩
  · simp [State.resetWith, AReset.initial, hreset]
  · simp [State.resetWith, AReset.initial, hreset]

/-- Settles O39: reset meets each clause of the invariant (`resetWith_inv`), the default parameters and
the blank image included. -/
theorem resetIsAdmitted : Obligations.ResetIsAdmitted :=
  ⟨fun _ _ hp hm => resetWith_inv hp hm, resetWith_inv (by decide) blank_wf⟩

end Sys2Proof
end

section
/-! PROOFS. The statements of 20_memory.md: the loader's image (R66, R82), the canonical form of a memory
(R51), what a step writes to memory (R54, R63, R64), and the low bits of a data word (I5). -/

namespace Sys2Proof

/-- A word whose opcode field is `0000`, a data word, decodes to NOP whatever its low bits hold (R64). -/
theorem decodeWord_of_opField_zero {w : Word} (h : opField w = 0b0000#4) :
    decodeWord w = .ok .nop := by
  rw [decodeWord, h]
  rfl

end Sys2Proof

namespace Sys2Proof.Machine

/-! ### What a read says about the two lists -/

section

variable {m : Memory} {a k : Nat} {w : Word}

theorem read_eq_word_iff :
    m.read a = .word w ↔ a < Config.memCells ∧ a ∉ m.invalid ∧ lookupWord a m.words = some w := by
  unfold Memory.read
  split
  · split
    · simp_all
    · cases lookupWord a m.words <;> simp_all
  · simp_all

theorem read_eq_invalid_iff : m.read a = .invalid ↔ a < Config.memCells ∧ a ∈ m.invalid := by
  unfold Memory.read
  split
  · split
    · simp_all
    · cases lookupWord a m.words <;> simp_all
  · simp_all

theorem read_listWord_same (hk : k < Config.memCells) (hm : k ∉ m.invalid) :
    ({ m with words := (k, w) :: m.words } : Memory).read k = .word w :=
  read_eq_word_iff.2 ⟨hk, hm, by simp [lookupWord]⟩

theorem read_listWord_other (ha : a ≠ k) :
    ({ m with words := (k, w) :: m.words } : Memory).read a = m.read a := by
  simp [Memory.read, lookupWord, ha]

theorem read_listInvalid_same (hk : k < Config.memCells) :
    ({ m with invalid := k :: m.invalid } : Memory).read k = .invalid :=
  read_eq_invalid_iff.2 ⟨hk, List.mem_cons_self⟩

theorem read_listInvalid_other (ha : a ≠ k) :
    ({ m with invalid := k :: m.invalid } : Memory).read a = m.read a := by
  simp [Memory.read, ha]

end

/-! ### The canonical form is unique -/

/-- Where addresses rise, every listed word is the one that is found. -/
theorem lookupWord_of_mem {a : Nat} {w : Word} {l : List Host.Cell}
    (hrise : (l.map Prod.fst).Pairwise (· < ·)) (h : (a, w) ∈ l) : lookupWord a l = some w := by
  induction l with
  | nil => cases h
  | cons c rest ih =>
    obtain ⟨b, v⟩ := c
    obtain ⟨hfirst, hrest⟩ := List.pairwise_cons.1 hrise
    obtain heq | hmem := List.mem_cons.1 h
    · cases heq
      simp [lookupWord]
    · have hlt : b < a := hfirst a (List.mem_map_of_mem hmem)
      rw [lookupWord, if_neg hlt.ne', ih hrest hmem]

/-- In canonical form the listed words are the words that are read. -/
theorem mem_words_iff_read {m : Memory} (h : m.wf) (c : Host.Cell) :
    c ∈ m.words ↔ m.read c.1 = .word c.2 := by
  obtain ⟨hrise, hcells, -, -, hdisjoint⟩ := h
  rw [read_eq_word_iff]
  refine ⟨fun hc => ⟨hcells c hc, fun hinv => ?_, lookupWord_of_mem hrise hc⟩,
    fun ⟨_, _, hlookup⟩ => lookupWord_some_mem hlookup⟩
  exact hdisjoint c.1 hinv (List.mem_map_of_mem hc)

/-- In canonical form the listed `Invalid` cells are the ones that read so. -/
theorem mem_invalid_iff_read {m : Memory} (h : m.wf) (a : Nat) :
    a ∈ m.invalid ↔ m.read a = .invalid := by
  obtain ⟨-, -, -, hcells, -⟩ := h
  rw [read_eq_invalid_iff]
  exact ⟨fun ha => ⟨hcells a ha, ha⟩, And.right⟩

/-- Two lists of words with rising addresses and the same members are equal. -/
theorem words_eq_of_mem_iff {l k : List Host.Cell} (hl : (l.map Prod.fst).Pairwise (· < ·))
    (hk : (k.map Prod.fst).Pairwise (· < ·)) (h : ∀ c, c ∈ l ↔ c ∈ k) : l = k := by
  have : Std.Irrefl fun c d : Host.Cell => c.1 < d.1 := ⟨fun c => Nat.lt_irrefl c.1⟩
  have : Std.Antisymm fun c d : Host.Cell => c.1 < d.1 :=
    ⟨fun _ _ hcd hdc => absurd hdc hcd.asymm⟩
  exact (List.pairwise_map.1 hl).eq_of_mem_iff (List.pairwise_map.1 hk) h

/-- The reads of a canonical memory fix the members of both its lists, and so the lists. -/
theorem memory_eq_of_read_eq {m n : Memory} (hm : m.wf) (hn : n.wf)
    (hread : ∀ a, m.read a = n.read a) : m = n := by
  obtain ⟨hmwords, -, hminvalid, -⟩ := id hm
  obtain ⟨hnwords, -, hninvalid, -⟩ := id hn
  have hwords : m.words = n.words := words_eq_of_mem_iff hmwords hnwords fun c => by
    rw [mem_words_iff_read hm, mem_words_iff_read hn, hread]
  have hinvalid : m.invalid = n.invalid := hminvalid.eq_of_mem_iff hninvalid fun a => by
    rw [mem_invalid_iff_read hm, mem_invalid_iff_read hn, hread]
  calc m = ⟨m.words, m.invalid⟩ := rfl
    _ = ⟨n.words, n.invalid⟩ := by rw [hwords, hinvalid]
    _ = n := rfl

/-! ### The word of a line -/

/-- The symbol of a bit (R82). -/
def bitSymbol (b : Bool) : Char := if b then '1' else '0'

@[simp] theorem symbolBit_bitSymbol (b : Bool) : symbolBit (bitSymbol b) = some b := by
  cases b <;> rfl

theorem symbolBit_eq_none {c : Char} (h0 : c ≠ '0') (h1 : c ≠ '1') : symbolBit c = none := by
  rw [symbolBit, if_neg h0, if_neg h1]

theorem mapM_symbolBit_bitSymbol (bs : List Bool) :
    (bs.map bitSymbol).mapM symbolBit = some bs := by
  induction bs with
  | nil => rfl
  | cons b bs ih => simp [ih]

theorem mapM_symbolBit_eq_none {l : Line} {c : Char} (hc : c ∈ l) (h : symbolBit c = none) :
    l.mapM symbolBit = none := by
  induction l with
  | nil => cases hc
  | cons d rest ih =>
    rw [List.mapM_cons]
    obtain rfl | hrest := List.mem_cons.1 hc
    · rw [h]
      rfl
    · rw [ih hrest]
      cases symbolBit d <;> rfl

theorem bitsValue_append (bs : List Bool) (b : Bool) :
    bitsValue (bs ++ [b]) = 2 * bitsValue bs + b.toNat := by
  simp [bitsValue]

/-- Bit `i` of the value is the `i`-th of the digits counted from the last. -/
theorem testBit_bitsValue (bs : List Bool) (i : Nat) :
    (bitsValue bs).testBit i = bs.reverse[i]?.getD false := by
  induction bs using List.reverseRecOn generalizing i with
  | nil => simp [bitsValue]
  | append_singleton bs b ih =>
    rw [bitsValue_append, List.reverse_append]
    cases i with
    | zero => cases b <;> simp [Nat.testBit_zero, Nat.add_mod]
    | succ i =>
      have hhalf : (2 * bitsValue bs + b.toNat) / 2 = bitsValue bs := by
        have := b.toNat_lt
        omega
      rw [Nat.testBit_succ, hhalf, ih]
      rfl

/-- The first digit is the most significant bit (R66, D12). -/
theorem getMsbD_bitsValue {bs : List Bool} {n : Nat} (h : bs.length = n) (i : Nat) :
    (BitVec.ofNat n (bitsValue bs)).getMsbD i = bs[i]?.getD false := by
  subst h
  rw [BitVec.getMsbD, BitVec.getLsbD_ofNat, testBit_bitsValue]
  by_cases hi : i < bs.length
  · rw [List.getElem?_reverse (by omega)]
    have hlast : bs.length - 1 - (bs.length - 1 - i) = i := by omega
    have hpos : bs.length - 1 - i < bs.length := by omega
    simp [hi, hlast, hpos]
  · simp [hi]

/-- The word of a line of eight binary symbols, whatever follows them. -/
theorem lineWord_bitSymbols {bs : List Bool} (h : bs.length = Config.wordBits) (rest : Line) :
    lineWord (bs.map bitSymbol ++ rest) = some (BitVec.ofNat 8 (bitsValue bs)) := by
  have htake : (bs.map bitSymbol ++ rest).take Config.wordBits = bs.map bitSymbol := by
    rw [← h, List.take_left' (List.length_map _)]
  rw [lineWord, htake, if_pos (by simpa using h), mapM_symbolBit_bitSymbol]
  rfl

theorem lineWord_of_short {l : Line} (h : l.length < Config.wordBits) : lineWord l = none := by
  rw [lineWord, if_neg]
  rw [List.length_take]
  omega

theorem lineWord_of_badSymbol {l : Line} {c : Char} (hc : c ∈ l.take Config.wordBits)
    (h0 : c ≠ '0') (h1 : c ≠ '1') : lineWord l = none := by
  rw [lineWord, mapM_symbolBit_eq_none hc (symbolBit_eq_none h0 h1)]
  exact ite_self _

/-! ### The loader's image -/

/-- What the loader puts in a cell: the cell's line decides, if there is one (R66, D10). -/
def lineCell : Option Line → CellValue
  | none => .empty
  | some l => match lineWord l with
    | some w => .word w
    | none => .invalid

theorem read_fillFrom_first (l : Line) (rest : List Line) {k : Nat}
    (h : k + (l :: rest).length ≤ Config.memCells) :
    (fillFrom k (l :: rest)).read k = lineCell (some l) := by
  rw [List.length_cons] at h
  have hk : k < Config.memCells := by omega
  rw [fillFrom, lineCell]
  cases lineWord l with
  | none => exact read_listInvalid_same hk
  | some w =>
    obtain ⟨-, -, hinvalid⟩ := fillFrom_form rest (k + 1) (by omega)
    exact read_listWord_same hk fun hmem => absurd (hinvalid k hmem) (by omega)

theorem read_fillFrom_later (l : Line) (rest : List Line) {k a : Nat} (h : a ≠ k) :
    (fillFrom k (l :: rest)).read a = (fillFrom (k + 1) rest).read a := by
  rw [fillFrom]
  cases lineWord l with
  | none => exact read_listInvalid_other h
  | some w => exact read_listWord_other h

/-- Filling from cell `k` on gives the cell `k + j` to line `j`. -/
theorem read_fillFrom (ls : List Line) (k j : Nat) (h : k + ls.length ≤ Config.memCells) :
    (fillFrom k ls).read (k + j) = lineCell ls[j]? := by
  induction ls generalizing k j with
  | nil => exact read_blank _
  | cons l rest ih =>
    cases j with
    | zero => exact read_fillFrom_first l rest h
    | succ j =>
      rw [List.length_cons] at h
      rw [read_fillFrom_later l rest (by omega), List.getElem?_cons_succ, ← ih (k + 1) j (by omega)]
      congr 1
      omega

theorem load_eq_loaded {ls : List Line} {m : Memory} (h : load (.lines ls) = .loaded m) :
    m = fillFrom 0 (ls.take Config.memCells) := by
  cases ls with
  | nil => cases h
  | cons l rest => cases h; rfl

/-! ### The execute stage of a word and of a cell -/

theorem executeWord_of_ok {w : Word} {i : Instr} (h : decodeWord w = .ok i) (s : State) :
    executeWord w s = exec i s := by
  simp only [executeWord, h]

theorem executeWord_of_error {w : Word} {op : Nibble}
    (h : decodeWord w = .error (.invalidOpcode op)) (s : State) : executeWord w s = .next (s.raiseFatal .invalidOpcode) := by
  simp only [executeWord, h]

/-- A data word runs as NOP (R64). -/
theorem executeWord_of_opField_zero {w : Word} (h : opField w = 0b0000#4) (s : State) :
    executeWord w s = .next s :=
  executeWord_of_ok (decodeWord_of_opField_zero h) s

/-- Decode and execute what a fetch found (R93 to R95); `fetchExecute_eq_executeCell` ties it to the
model. -/
def executeCell (c : CellValue) (s : State) : Host.Outcome State Fault Refusal :=
  match c with
  | .empty => .next (emptyFetch s)
  | .invalid => .next (s.raiseFatal .malformedWord)
  | .word w => executeWord w s

theorem fetchExecute_eq_executeCell (s : State) :
    fetchExecute s = executeCell (s.mem.read s.pc) s := by
  obtain ⟨hread, he⟩ | ⟨hread, he⟩ | ⟨w, hread, he⟩ := fetchExecute_cases s
  all_goals
    rw [he, hread]
    rfl

/-! ### What a step writes to memory -/

section

variable {s t : State}

/-- STA on a value of A stores its low four bits as a data word (R112). -/
theorem exec_sta_value (imm : Nibble) {a : Int} (h : s.acc = .value a) :
    exec (.sta imm) s = .next (s.store imm (joinNibbles 0b0000#4 (low4 a))) :=
  congrArg Host.Outcome.next (withAcc_value _ h)

/-- STA changes at most the cell it names. -/
theorem exec_sta_mem_other {imm : Nibble} (h : exec (.sta imm) s = .next t) {a : Nat}
    (ha : a ≠ imm.toNat) : t.mem.read a = s.mem.read a := by
  cases exec_executed h with
  | fatal i r => rfl
  | sta imm w => exact read_write_other _ _ _ ha

/-- The fetch and the execute stage change memory only where the fetched word is a STA, and then only the
cell it names. -/
theorem fetchExecute_mem (h : fetchExecute s = .next t) :
    t.mem = s.mem ∨ ∃ w imm, s.mem.read s.pc = .word w ∧ decodeWord w = .ok (.sta imm) ∧
      ∀ a, a ≠ imm.toNat → t.mem.read a = s.mem.read a := by
  obtain ⟨-, rfl⟩ | ⟨-, rfl⟩ | ⟨w, op, -, -, rfl⟩ | ⟨w, i, hread, hdecode, hexec⟩ :=
    fetchExecute_next h
  · exact .inl rfl
  · exact .inl rfl
  · exact .inl rfl
  · by_cases hi : ∃ imm, i = .sta imm
    · obtain ⟨imm, rfl⟩ := hi
      exact .inr ⟨w, imm, hread, hdecode, fun a => exec_sta_mem_other hexec⟩
    · exact .inl (exec_mem hexec fun imm himm => hi ⟨imm, himm⟩)

/-- The cycle of a running core whose pc names a word that decodes. -/
theorem step_of_decode {w : Word} {i : Instr} (hs : s.status = .running)
    (hread : s.mem.read s.pc = .word w) (hdecode : decodeWord w = .ok i)
    (hexec : exec i (beginCycle s) = .next t) : step s = .next (postCycle t) := by
  have hfetch : fetchExecute (beginCycle s) = .next t := by
    rw [fetchExecute_eq_executeCell, beginCycle_mem, beginCycle_pc, hread]
    exact (executeWord_of_ok hdecode _).trans hexec
  rw [step_of_running s hs, runCycle, hfetch, finishCycle]

/-- Once the run has started, the cycle of a NOP is the post-cycle phase alone (R170). -/
theorem step_of_nop {w : Word} (hs : s.status = .running) (hstarted : s.started = true)
    (hread : s.mem.read s.pc = .word w) (hdecode : decodeWord w = .ok .nop) :
    step s = .next (postCycle { s with jumped := false }) := by
  have hbegin : beginCycle s = { s with jumped := false } := by
    rw [beginCycle, startRun, if_pos hstarted]
  rw [← hbegin]
  exact step_of_decode hs hread hdecode rfl

/-- The cycle of a STA, while A holds a value and HALT is false, leaves the core running with a data word
in the cell named. -/
theorem step_of_sta {w : Word} {imm : Nibble} {a : Int} (hs : s.status = .running)
    (hhalt : s.halt = false) (hread : s.mem.read s.pc = .word w)
    (hdecode : decodeWord w = .ok (.sta imm)) (hacc : s.acc = .value a) :
    ∃ t v, step s = .next t ∧ t.status = .running ∧ t.started = true ∧
      t.mem.read imm.toNat = .word v ∧ opField v = 0b0000#4 :=
  ⟨_, joinNibbles 0b0000#4 (low4 a),
    step_of_decode hs hread hdecode (exec_sta_value imm ((beginCycle_acc s).trans hacc)),
    by simp [hhalt, hs], by simp, by simp, opField_joinNibbles _ _⟩

end

/-! ### Operations that ignore the memory -/

/-- `s` over another memory. -/
def State.withMem (s : State) (m : Memory) : State := { s with mem := m }

/-- `f` neither reads nor writes the memory: over another memory it does the same. -/
def IgnoresMemory (f : State → State) : Prop :=
  ∀ (s : State) (m : Memory), f (s.withMem m) = (f s).withMem m

namespace IgnoresMemory

variable {f g : State → State}

theorem mem_eq (hf : IgnoresMemory f) (s : State) : (f s).mem = s.mem :=
  calc (f s).mem = ((f s).withMem s.mem).mem := congrArg State.mem (hf s s.mem)
    _ = s.mem := rfl

theorem id : IgnoresMemory fun s => s := fun _ _ => rfl

theorem comp (hg : IgnoresMemory g) (hf : IgnoresMemory f) : IgnoresMemory fun s => g (f s) :=
  fun s m => (congrArg g (hf s m)).trans (hg (f s) m)

/-- A choice ignores the memory where its condition and both its branches do. -/
theorem ite {c : State → Bool} (hc : ∀ s m, c (s.withMem m) = c s) (hf : IgnoresMemory f)
    (hg : IgnoresMemory g) : IgnoresMemory fun s => if c s then f s else g s := fun s m => by
  dsimp only
  rw [hc, hf, hg]
  cases c s <;> rfl

theorem emit (e : Event) : IgnoresMemory (·.emit e) := fun _ _ => rfl

theorem trace (e : Event) : IgnoresMemory (·.trace e) :=
  .ite (c := (·.dbg)) (fun _ _ => rfl) (.emit e) .id

theorem setFlags (c z : Bool) : IgnoresMemory (·.setFlags c z) := fun _ _ => rfl

theorem setAcc {v : State → Int} (hv : ∀ s m, v (s.withMem m) = v s) (hf : IgnoresMemory f) :
    IgnoresMemory fun s => (f s).setAcc (v s) := fun s m => by
  dsimp only
  rw [hv, hf]
  rfl

theorem raiseFatal (r : Cause) : IgnoresMemory (·.raiseFatal r) := fun _ _ => rfl

/-- A read of A ignores the memory where its continuation does; the fatal read always does. -/
theorem withAcc {go : State → Int → State} (hgo : ∀ a, IgnoresMemory (go · a)) :
    IgnoresMemory fun s => s.withAcc (go s) := fun s m => by
  dsimp only
  obtain ⟨hacc, hfatal⟩ | ⟨a, hacc, hvalue⟩ := withAcc_cases s (go s)
  · rw [hfatal, withAcc_unset (s := s.withMem m) _ hacc]
    exact raiseFatal _ s m
  · rw [hvalue, withAcc_value (s := s.withMem m) _ hacc]
    exact hgo a s m

/-- A jump ignores the memory where its condition does. -/
theorem jumpIf {taken : State → Bool} (imm : Nibble)
    (htaken : ∀ s m, taken (s.withMem m) = taken s) : IgnoresMemory fun s => jumpIf (taken s) imm s :=
  .ite htaken (fun _ _ => rfl) .id

theorem loadHighNibble (c : CellValue) : IgnoresMemory (loadHighNibble · c) := by
  cases c with
  | empty => exact raiseFatal _
  | invalid => exact raiseFatal _
  | word v => exact .setAcc (fun _ _ => rfl) .id

theorem beginCycle : IgnoresMemory beginCycle := fun s m => by
  rw [beginCycle_eq, beginCycle_eq]
  rfl

theorem postCycle : IgnoresMemory postCycle := fun s m => by
  rw [postCycle_eq, postCycle_eq]
  rfl

end IgnoresMemory

/-- Every instruction but LDA and STA ignores the memory. -/
theorem exec_ignoresMemory {i : Instr} (hi : ∀ x, i ≠ .lda x ∧ i ≠ .sta x) :
    ∃ f, IgnoresMemory f ∧ ∀ s, exec i s = .next (f s) := by
  cases i with
  | lda imm => exact absurd rfl (hi imm).1
  | sta imm => exact absurd rfl (hi imm).2
  | nop => exact ⟨_, .id, fun _ => rfl⟩
  | add imm =>
    exact ⟨_, .withAcc fun a => .setAcc (fun _ _ => rfl) (.comp (.trace _) (.setFlags _ _)),
      fun _ => rfl⟩
  | sub imm =>
    exact ⟨_, .withAcc fun a => .ite (fun _ _ => rfl)
      (.setAcc (fun _ _ => rfl) (.comp (.trace _) (.setFlags _ _))) (.raiseFatal _), fun _ => rfl⟩
  | ldi imm => exact ⟨_, .comp (.trace _) (.setAcc (fun _ _ => rfl) .id), fun _ => rfl⟩
  | jmp imm => exact ⟨_, .jumpIf imm fun _ _ => rfl, fun _ => rfl⟩
  | jc imm => exact ⟨_, .jumpIf imm fun _ _ => rfl, fun _ => rfl⟩
  | jz imm => exact ⟨_, .jumpIf imm fun _ _ => rfl, fun _ => rfl⟩
  | debug => exact ⟨_, fun _ _ => rfl, fun _ => rfl⟩
  | out => exact ⟨_, .withAcc fun a => .emit _, fun _ => rfl⟩
  | hlt => exact ⟨_, fun _ _ => rfl, fun _ => rfl⟩

/-! ### Cells alike but for the low bits of data words -/

theorem sameCell.refl (c : CellValue) : sameCell c c := .inl rfl

/-- A fetch does not tell like cells apart: data words run as NOP. -/
theorem sameCell.executeCell_eq {c d : CellValue} (h : sameCell c d) (s : State) :
    executeCell c s = executeCell d s := by
  obtain rfl | ⟨v, w, rfl, rfl, hv, hw⟩ := h
  · rfl
  · calc executeWord v s = .next s := executeWord_of_opField_zero hv s
      _ = executeWord w s := (executeWord_of_opField_zero hw s).symm

/-- LDA does not tell like cells apart: it reads the high nibble alone. -/
theorem sameCell.loadHighNibble_eq {c d : CellValue} (h : sameCell c d) (s : State) :
    loadHighNibble s c = loadHighNibble s d := by
  obtain rfl | ⟨v, w, rfl, rfl, hv, hw⟩ := h
  · rfl
  · simp only [loadHighNibble, hv, hw]

/-! ### States alike but for the low bits of data words -/

namespace sameButData

variable {s t s' : State}

theorem read (h : sameButData s t) (a : Nat) : sameCell (s.mem.read a) (t.mem.read a) := h.2 a
theorem pc_eq (h : sameButData s t) : t.pc = s.pc := by rw [h.1]
theorem acc_eq (h : sameButData s t) : t.acc = s.acc := by rw [h.1]
theorem status_eq (h : sameButData s t) : t.status = s.status := by rw [h.1]
theorem log_eq (h : sameButData s t) : t.log = s.log := by rw [h.1]
theorem params_eq (h : sameButData s t) : t.params = s.params := by rw [h.1]

theorem exists_withMem (h : sameButData s t) :
    ∃ m, t = s.withMem m ∧ ∀ a, sameCell (s.mem.read a) (m.read a) := ⟨t.mem, h⟩

/-- An operation that ignores the memory keeps like states alike. -/
theorem map (h : sameButData s t) {f : State → State} (hf : IgnoresMemory f) :
    sameButData (f s) (f t) := by
  obtain ⟨m, rfl, hcells⟩ := h.exists_withMem
  rw [hf s m]
  exact ⟨rfl, fun a => by rw [hf.mem_eq]; exact hcells a⟩

/-- Storing one word in like states keeps them alike. -/
theorem store (h : sameButData s t) (b : Nibble) (w : Word) :
    sameButData (s.store b w) (t.store b w) := by
  obtain ⟨m, rfl, hcells⟩ := h.exists_withMem
  refine ⟨rfl, fun a => ?_⟩
  show sameCell ((s.mem.write b w).read a) ((m.write b w).read a)
  by_cases ha : a = b.toNat
  · rw [ha, read_write_same, read_write_same]
    exact .refl _
  · rw [read_write_other _ _ _ ha, read_write_other _ _ _ ha]
    exact hcells a

/-- Every instruction runs alike from like states. LDA reads a high nibble, STA stores the same word, and
the others ignore the memory. -/
theorem exec (h : sameButData s t) {i : Instr} (hexec : Machine.exec i s = .next s') :
    ∃ t', Machine.exec i t = .next t' ∧ sameButData s' t' := by
  by_cases hi : ∀ x, i ≠ .lda x ∧ i ≠ .sta x
  · obtain ⟨f, hf, hrun⟩ := exec_ignoresMemory hi
    rw [hrun] at hexec
    cases hexec
    exact ⟨f t, hrun t, h.map hf⟩
  · cases i with
    | lda imm =>
      cases hexec
      refine ⟨_, rfl, ?_⟩
      rw [h.params_eq, ← (h.read _).loadHighNibble_eq t]
      exact h.map (.loadHighNibble _)
    | sta imm =>
      cases hexec
      refine ⟨_, rfl, ?_⟩
      cases hacc : s.acc with
      | unset =>
        rw [withAcc_unset _ hacc, withAcc_unset _ (h.acc_eq.trans hacc)]
        exact h.map (.raiseFatal _)
      | value a =>
        rw [withAcc_value _ hacc, withAcc_value _ (h.acc_eq.trans hacc)]
        exact h.store imm _
    | _ => exact absurd (fun x => ⟨nofun, nofun⟩) hi

/-- Like states execute a fetched cell alike. -/
theorem executeCell (h : sameButData s t) {c : CellValue}
    (hexec : Machine.executeCell c s = .next s') :
    ∃ t', Machine.executeCell c t = .next t' ∧ sameButData s' t' := by
  cases c with
  | empty => cases hexec; exact ⟨_, rfl, h.map (f := emptyFetch) fun _ _ => rfl⟩
  | invalid => cases hexec; exact ⟨_, rfl, h.map (.raiseFatal _)⟩
  | word w =>
    rw [Machine.executeCell] at hexec ⊢
    cases hdecode : decodeWord w with
    | ok i =>
      rw [executeWord_of_ok hdecode] at hexec ⊢
      exact h.exec hexec
    | error e =>
      obtain ⟨op⟩ := e
      rw [executeWord_of_error hdecode] at hexec ⊢
      cases hexec
      exact ⟨_, rfl, h.map (.raiseFatal _)⟩

/-- Like states fetch like cells, and execute them alike. -/
theorem fetchExecute (h : sameButData s t) (hexec : Machine.fetchExecute s = .next s') :
    ∃ t', Machine.fetchExecute t = .next t' ∧ sameButData s' t' := by
  rw [fetchExecute_eq_executeCell, (h.read _).executeCell_eq] at hexec
  rw [fetchExecute_eq_executeCell, h.pc_eq]
  exact h.executeCell hexec

/-- Like states take like steps. -/
theorem step (h : sameButData s t) (hstep : Machine.step s = .next s') :
    ∃ t', Machine.step t = .next t' ∧ sameButData s' t' := by
  obtain ⟨hrunning, u, hu, rfl⟩ := step_next hstep
  obtain ⟨v, hv, huv⟩ := (h.map .beginCycle).fetchExecute hu
  refine ⟨postCycle v, ?_, huv.map .postCycle⟩
  rw [step_of_running t (h.status_eq.trans hrunning), runCycle, hv, finishCycle]

end sameButData

/-! ### Runs that step alike -/

/-- A run of `k + 1` steps is one step and a run of `k`. -/
theorem reaches_succ {k : Nat} {s t : State} :
    Reaches (k + 1) s t ↔ ∃ u, step s = .next u ∧ Reaches k u t := by
  refine ⟨fun h => ?_, fun ⟨u, hstep, h⟩ => (run_succ_of_next s k hstep).trans h⟩
  cases hstep : step s with
  | next u => exact ⟨u, rfl, (run_succ_of_next s k hstep).symm.trans h⟩
  | fault r => simp [Reaches, Host.Core.run, core, hstep] at h
  | refused r => simp [Reaches, Host.Core.run, core, hstep] at h

/-- A relation that every step carries over is carried over by every run. -/
theorem reaches_simulation {R : State → State → Prop}
    (hsim : ∀ {s t s'}, R s t → step s = .next s' → ∃ t', step t = .next t' ∧ R s' t') {k : Nat}
    {s t s' : State} (h : R s t) (hrun : Reaches k s s') : ∃ t', Reaches k t t' ∧ R s' t' := by
  induction k generalizing s t with
  | zero => cases hrun; exact ⟨t, rfl, h⟩
  | succ k ih =>
    obtain ⟨u, hstep, hrest⟩ := reaches_succ.1 hrun
    obtain ⟨v, hstep', huv⟩ := hsim h hstep
    obtain ⟨t', hrest', hend⟩ := ih huv hrest
    exact ⟨t', reaches_succ.2 ⟨v, hstep', hrest'⟩, hend⟩

end Sys2Proof.Machine

namespace Sys2Proof

open Sys2Proof.Machine

/-- Settles O54: `sameButData` is a simulation of the step, so of every run, and like states have one
log. -/
theorem dataWordLowBitsAreInvisible : Obligations.DataWordLowBitsAreInvisible := by
  intro k s t s' h hrun
  obtain ⟨t', hrun', hend⟩ := reaches_simulation sameButData.step h hrun
  exact ⟨t', hrun', hend, hend.log_eq⟩

/-- Settles O35: `read_fillFrom` at cell 0, on the first sixteen lines. -/
theorem loadedImageFollowsTheLines : Obligations.LoadedImageFollowsTheLines := by
  intro ls m hload i hi
  have hfill := read_fillFrom (ls.take Config.memCells) 0 i (by simp [Config.memCells])
  have hline : (ls.take Config.memCells)[i]? = ls[i]? := List.getElem?_take_of_lt hi
  rw [Nat.zero_add, hline] at hfill
  rw [load_eq_loaded hload, hfill]
  rfl

/-- Settles O36: eight binary symbols give the word whose value they write (`lineWord_bitSymbols`), whose
bits are read off by `getMsbD_bitsValue`; a line that is too short or has a bad symbol gives none. -/
theorem lineSymbolsAreTheBits : Obligations.LineSymbolsAreTheBits := by
  refine ⟨fun b7 b6 b5 b4 b3 b2 b1 b0 rest => ⟨_, lineWord_bitSymbols rfl rest, ?_⟩, ?_⟩
  · have hbit := getMsbD_bitsValue (bs := [b7, b6, b5, b4, b3, b2, b1, b0]) rfl
    exact ⟨hbit 0, hbit 1, hbit 2, hbit 3, hbit 4, hbit 5, hbit 6, hbit 7⟩
  · rintro l (hshort | ⟨c, hc, h0, h1⟩)
    · exact lineWord_of_short hshort
    · exact lineWord_of_badSymbol hc h0 h1

/-- Settles O38: the reads of a canonical memory fix the members of its two lists, and a rising list is
fixed by its members. -/
theorem canonicalMemoryIsUnique : Obligations.CanonicalMemoryIsUnique :=
  fun _ _ hm hn hread => memory_eq_of_read_eq hm hn hread

/-- Settles O43: the start of the cycle and the post-cycle phase keep memory, and `fetchExecute_mem` says
what lies between. -/
theorem onlyStaChangesMemory : Obligations.OnlyStaChangesMemory := by
  intro s t hstep
  obtain ⟨-, u, hexec, rfl⟩ := step_next hstep
  simp only [postCycle_mem]
  obtain hmem | hsta := fetchExecute_mem hexec
  · exact .inl fun a => by rw [hmem, beginCycle_mem]
  · exact .inr (by simpa only [beginCycle_mem, beginCycle_pc] using hsta)

/-- Settles O44: STA stores a word with opcode field `0000`, and the next fetch of that cell runs it as
NOP, whose execute stage changes nothing. -/
theorem storedWordIsFetchedAsNop : Obligations.StoredWordIsFetchedAsNop := by
  intro s w imm a hs hhalt hread hdecode hacc
  obtain ⟨t, v, hstep, hrunning, hstarted, hcell, hdata⟩ := step_of_sta hs hhalt hread hdecode hacc
  have hnop : decodeWord v = .ok .nop := decodeWord_of_opField_zero hdata
  exact ⟨t, v, hstep, hrunning, hcell, hnop,
    fun hpc => step_of_nop hrunning hstarted (hpc ▸ hcell) hnop⟩

/-- Settles O37: `boot` answers what `load` answers, and `load` fails for these two sources alone. -/
theorem loadErrorGivesNoRun : Obligations.LoadErrorGivesNoRun :=
  fun _ => ⟨rfl, rfl, fun _ _ => ⟨_, rfl, rfl⟩⟩

end Sys2Proof
end

section
/-! PROOFS. The statements of 30_encoding.md: the opcode map (R75), the decoder and the encoder as
inverses of each other (R71, R80), and the bits that change nothing (R77). -/

namespace Sys2Proof

variable {w : Word} {op imm : Nibble} {i : Instr}

/-! ### Decoding by the two fields -/

/-- The map of R75 read at a word's opcode: `decodeFields op` evaluates at each opcode. -/
theorem decodeWord_of_opField (h : opField w = op) : decodeWord w = decodeFields op (immField w) := by
  rw [decodeWord, h]

/-- An instruction's own two fields decode to it (R75). -/
theorem decodeFields_opcode_operand (i : Instr) : decodeFields i.opcode i.operand = .ok i := by
  cases i <;> rfl

/-- What two fields that decode say about their instruction: its opcode is the first, and its operand is
the second unless it is one of the four that have none (R75, R77). -/
theorem fields_of_decodeFields (h : decodeFields op imm = .ok i) :
    i.opcode = op ∧ (i.operand = imm ∨ i ∈ [Instr.nop, .debug, .out, .hlt]) := by
  unfold decodeFields at h
  split at h <;> cases h <;> simp [Instr.opcode, Instr.operand]

/-- The encoder's choice for the don't-care bits (R80, D22). -/
theorem operand_eq_zero (h : i ∈ [Instr.nop, .debug, .out, .hlt]) : i.operand = 0b0000#4 := by
  simp only [List.mem_cons, List.not_mem_nil, or_false] at h
  obtain rfl | rfl | rfl | rfl := h <;> rfl

/-- Under the opcodes of NOP, DEBUG, OUT and HLT the map does not look at the operand field (R77, D23). -/
theorem decodeFields_operand_irrel (h : op ∈ [0b0000#4, 0b1001#4, 0b1110#4, 0b1111#4]) (x y : Nibble) :
    decodeFields op x = decodeFields op y := by
  simp only [List.mem_cons, List.not_mem_nil, or_false] at h
  obtain rfl | rfl | rfl | rfl := h <;> rfl

/-! ### The two fields of an encoded instruction -/

@[simp] theorem opField_encode (i : Instr) : opField (encode i) = i.opcode := opField_joinNibbles _ _

@[simp] theorem immField_encode (i : Instr) : immField (encode i) = i.operand := immField_joinNibbles _ _

/-- A word is the encoding of the instruction whose opcode and operand are its two fields (R71). -/
theorem encode_eq_of_fields (hop : i.opcode = opField w) (himm : i.operand = immField w) :
    encode i = w := by
  rw [encode, hop, himm, joinNibbles_fields]

end Sys2Proof

namespace Sys2Proof.Machine

/-- Under `OpcodeField` LDA reads the cell of its opcode, whatever its operand field holds (R111). -/
theorem exec_lda_of_opcodeField {s : State} (h : s.params.ldaAddrSelect = .opcodeField) (imm : Nibble) :
    exec (.lda imm) s = .next (loadHighNibble s (s.mem.read 1)) := by
  simp only [exec, execLda, h, ldaAddr_opcodeField]
  rfl

end Sys2Proof.Machine

namespace Sys2Proof

open Sys2Proof.Machine

/-- Settles O3: the fields of the encoded word are the instruction's own, and those decode to it. -/
theorem decodeOfEncodeIsIdentity : Obligations.DecodeOfEncodeIsIdentity := by
  intro i
  calc decodeWord (encode i)
      = decodeFields i.opcode i.operand := decodeWord_joinNibbles i.opcode i.operand
    _ = .ok i := decodeFields_opcode_operand i

/-- Settles O4: the decoded instruction has the word's opcode and, but for the four without operand, its
operand field (`fields_of_decodeFields`), and a word is the join of its two fields. -/
theorem encodeRecoversTheWord : Obligations.EncodeRecoversTheWord := by
  intro w i hdecode
  obtain ⟨hop, himm⟩ := fields_of_decodeFields hdecode
  refine ⟨?_, fun hhas => ?_, fun hnone => ?_⟩
  · rw [opField_encode, hop]
  · exact encode_eq_of_fields hop (himm.resolve_right hhas)
  · rw [immField_encode, operand_eq_zero hnone]

/-- Settles O1: the map of R75, evaluated at each of the sixteen opcodes. -/
theorem decoderFollowsTheOpcodeMap : Obligations.DecoderFollowsTheOpcodeMap := by
  intro w
  and_intros <;> exact decodeWord_of_opField

/-- Settles O2: each word is written as its two fields, at which the map is evaluated. -/
theorem sampleWordsDecode : Obligations.SampleWordsDecode :=
  ⟨decodeWord_joinNibbles 0b0001#4 0b0000#4, decodeWord_joinNibbles 0b0100#4 0b0101#4,
    decodeWord_joinNibbles 0b0010#4 0b0011#4, decodeWord_joinNibbles 0b0110#4 0b1100#4,
    decodeWord_joinNibbles 0b1110#4 0b0101#4, decodeWord_joinNibbles 0b1011#4 0b0111#4⟩

/-- Settles O5: the map does not look at the operand field of NOP, DEBUG, OUT and HLT, and LDA does not
look at it under `OpcodeField`. -/
theorem unusedOperandBitsAreIgnored : Obligations.UnusedOperandBitsAreIgnored := by
  intro w v hsame
  refine ⟨fun hop => ?_, fun hlda => ?_⟩
  · calc decodeWord w
        = decodeFields (opField w) (immField w) := rfl
      _ = decodeFields (opField w) (immField v) := decodeFields_operand_irrel hop _ _
      _ = decodeWord v := (decodeWord_of_opField hsame.symm).symm
  · refine ⟨immField w, immField v, decodeWord_of_opField hlda,
      decodeWord_of_opField (hsame.symm.trans hlda), fun s hsel => ?_⟩
    rw [exec_lda_of_opcodeField hsel, exec_lda_of_opcodeField hsel]

end Sys2Proof
end

section
/-! PROOFS. The statements of 40_cycle.md: what a running core does with each kind of cell (R91 to R95,
R101), the post-cycle phase (R96 to R100), the fatal errors of a cycle (R94, R198), the events of a cycle
(R103), and the end of a run (R102, R104). -/

namespace Sys2Proof.Machine

/-! ### The cycle of a running core, by the cell it fetches -/

section

variable {s : State}

/-- A running core's cycle (R101): the cell at pc is executed from the start of the cycle, and the
post-cycle phase follows. -/
theorem step_eq_executeCell (hs : s.status = .running) :
    step s = finishCycle (executeCell (s.mem.read s.pc) (beginCycle s)) := by
  rw [step_of_running s hs, runCycle, fetchExecute_eq_executeCell, beginCycle_mem, beginCycle_pc]

theorem step_of_empty (hs : s.status = .running) (hread : s.mem.read s.pc = .empty) :
    step s = .next (postCycle (emptyFetch (beginCycle s))) := by
  rw [step_eq_executeCell hs, hread, executeCell, finishCycle]

theorem step_of_invalid (hs : s.status = .running) (hread : s.mem.read s.pc = .invalid) :
    step s = .next (postCycle ((beginCycle s).raiseFatal .malformedWord)) := by
  rw [step_eq_executeCell hs, hread, executeCell, finishCycle]

theorem step_of_word {w : Word} (hs : s.status = .running) (hread : s.mem.read s.pc = .word w) :
    step s = finishCycle (executeWord w (beginCycle s)) := by
  rw [step_eq_executeCell hs, hread, executeCell]

/-- Placing a word leaves the core running with that word at its pc (log 7). -/
theorem read_withFetchWord (s : State) (nbits w : Nat) :
    (s.withFetchWord nbits w).mem.read (s.withFetchWord nbits w).pc =
      .word (BitVec.ofNat 8 (w % 2 ^ nbits)) :=
  read_write_same _ _ _

end

/-! ### The post-cycle phase on the flags and its events -/

section

variable (s : State)

@[simp] theorem postCycle_cf : (postCycle s).cf = (s.cf && !s.dbg) := by rw [postCycle_eq]

@[simp] theorem postCycle_zf : (postCycle s).zf = (s.zf && !(s.dbg && !s.cf)) := by rw [postCycle_eq]

theorem endStatus_eq (e : Option Cause) :
    endStatus e = if e = none then .halted else .errored := by
  cases e <;> rfl

/-- The start of the cycle changes nothing that the pause and the warnings depend on. -/
@[simp] theorem postEvents_beginCycle : postEvents (beginCycle s) = postEvents s := by
  simp [postEvents]

@[simp] theorem postEvents_raiseFatal (r : Cause) : postEvents (s.raiseFatal r) = postEvents s := rfl

/-- After an `Empty` fetch the core is in debug mode, so it always pauses and warns about a set flag. -/
theorem postEvents_emptyFetch :
    postEvents (emptyFetch s) =
      .pause :: (if s.cf then [.warnCF s.pc] else if s.zf then [.warnZF s.pc] else []) := rfl

end

/-! ### Fatal errors -/

section

variable {s t : State}

/-- The fetch and the execute stage keep the status: only the halt check writes it. -/
theorem fetchExecute_status (h : fetchExecute s = .next t) : t.status = s.status := by
  obtain ⟨-, rfl⟩ | ⟨-, rfl⟩ | ⟨w, op, -, -, rfl⟩ | ⟨w, i, -, -, hexec⟩ := fetchExecute_next h
  · rfl
  · rfl
  · rfl
  · exact exec_status hexec

/-- The fetch and the execute stage write err by a fatal error alone, and that writes nothing but err,
HALT and the log. -/
theorem fetchExecute_err (h : fetchExecute s = .next t) :
    t.err = s.err ∨ ∃ r, t = s.raiseFatal r := by
  obtain ⟨-, rfl⟩ | ⟨-, rfl⟩ | ⟨w, op, -, -, rfl⟩ | ⟨w, i, -, -, hexec⟩ := fetchExecute_next h
  · exact .inl rfl
  · exact .inr ⟨_, rfl⟩
  · exact .inr ⟨_, rfl⟩
  · exact (exec_err_halt hexec).imp_left And.left

/-- A cycle from a running core without an error reason that ends `Errored` raised a fatal error. -/
theorem step_errored (herr : s.err = none) (h : step s = .next t) (ht : t.status = .errored) :
    ∃ r, t = postCycle ((beginCycle s).raiseFatal r) := by
  obtain ⟨hrunning, u, hexec, rfl⟩ := step_next h
  obtain hkept | ⟨r, rfl⟩ := fetchExecute_err hexec
  · have hstatus : u.status = .running := by
      rw [fetchExecute_status hexec, beginCycle_status, hrunning]
    have hnone : u.err = none := by rw [hkept, beginCycle_err, herr]
    rw [postCycle_status, hstatus, hnone, endStatus_none] at ht
    split at ht <;> cases ht
  · exact ⟨r, rfl⟩

/-- The log of a cycle that raises a fatal error: the report, the pause and the warning, and the notice
of the end, after `Start` where the run starts with this cycle. -/
theorem fatalCycle_log (s : State) (r : Cause) :
    (postCycle ((beginCycle s).raiseFatal r)).log =
      (if s.started then s.log else s.log ++ [.start]) ++ [.errorReport s.pc r] ++ postEvents s ++
        [.haltNotice] := by
  simp

end

/-! ### The events of a cycle -/

/-- `l'` is `l` with events appended, none of which is `Start`. -/
def AppendsNoStart (l l' : List Event) : Prop := ∃ es, l' = l ++ es ∧ .start ∉ es

namespace AppendsNoStart

variable {l l' l'' : List Event}

theorem refl (l : List Event) : AppendsNoStart l l := ⟨[], by simp, by simp⟩

theorem append (l : List Event) {es : List Event} (h : .start ∉ es) : AppendsNoStart l (l ++ es) :=
  ⟨es, rfl, h⟩

theorem trans (h : AppendsNoStart l l') (h' : AppendsNoStart l' l'') : AppendsNoStart l l'' := by
  obtain ⟨es, rfl, hes⟩ := h
  obtain ⟨fs, rfl, hfs⟩ := h'
  exact ⟨es ++ fs, by simp, by simp [hes, hfs]⟩

end AppendsNoStart

section

variable {s t : State}

theorem trace_appendsNoStart (s : State) {e : Event} (he : .start ≠ e) :
    AppendsNoStart s.log (s.trace e).log := by
  rw [trace_log]
  split
  · exact .append _ (by simpa)
  · exact .refl _

/-- No instruction emits `Start`. -/
theorem exec_appendsNoStart {i : Instr} (h : exec i s = .next t) : AppendsNoStart s.log t.log := by
  cases exec_executed h with
  | fatal i r => exact .append _ (by simp)
  | add imm a hacc => exact trace_appendsNoStart (s.setFlags _ _) (by simp)
  | sub imm a hacc hrange => exact trace_appendsNoStart (s.setFlags _ _) (by simp)
  | ldi imm => exact trace_appendsNoStart (s.setAcc _) (by simp)
  | debug => exact .append _ (by simp)
  | out a => exact .append _ (by simp)
  | jmp imm => rw [jumpIf_log]; exact .refl _
  | jc imm => rw [jumpIf_log]; exact .refl _
  | jz imm => rw [jumpIf_log]; exact .refl _
  | nop | lda | sta | hlt => exact .refl _

theorem fetchExecute_started (h : fetchExecute s = .next t) : t.started = s.started := by
  obtain ⟨-, rfl⟩ | ⟨-, rfl⟩ | ⟨w, op, -, -, rfl⟩ | ⟨w, i, -, -, hexec⟩ := fetchExecute_next h
  · rfl
  · rfl
  · rfl
  · exact exec_started hexec

theorem fetchExecute_appendsNoStart (h : fetchExecute s = .next t) :
    AppendsNoStart s.log t.log := by
  obtain ⟨-, rfl⟩ | ⟨-, rfl⟩ | ⟨w, op, -, -, rfl⟩ | ⟨w, i, -, -, hexec⟩ := fetchExecute_next h
  · exact .refl _
  · exact .append _ (by simp)
  · exact .append _ (by simp)
  · exact exec_appendsNoStart hexec

theorem start_notMem_postEvents (s : State) : .start ∉ postEvents s := by
  unfold postEvents
  split_ifs <;> simp

theorem postCycle_appendsNoStart (s : State) : AppendsNoStart s.log (postCycle s).log := by
  rw [postCycle_log]
  refine (AppendsNoStart.append _ (start_notMem_postEvents s)).trans (.append _ ?_)
  split <;> simp

/-- After the start of the cycle nothing emits `Start`. -/
theorem step_appendsNoStart (h : step s = .next t) : AppendsNoStart (beginCycle s).log t.log := by
  obtain ⟨-, u, hexec, rfl⟩ := step_next h
  exact (fetchExecute_appendsNoStart hexec).trans (postCycle_appendsNoStart u)

/-- Every step leaves the run started (R103, log 4). -/
theorem step_started (h : step s = .next t) : t.started = true := by
  obtain ⟨-, u, hexec, rfl⟩ := step_next h
  rw [postCycle_started, fetchExecute_started hexec, beginCycle_started]

theorem beginCycle_log_append (s : State) :
    (beginCycle s).log = s.log ++ (if s.started then [] else [.start]) := by
  rw [beginCycle_log]
  split <;> simp

end

/-! ### The end of a run -/

/-- What every step keeps, every run keeps. -/
theorem reaches_keeps {P : State → Prop}
    (hkeep : ∀ {s t}, P s → step s = .next t → P t) {k : Nat} {s t : State} (hs : P s)
    (hrun : Reaches k s t) : P t := by
  induction k generalizing s with
  | zero => cases hrun; exact hs
  | succ k ih =>
    obtain ⟨u, hstep, hrest⟩ := reaches_succ.1 hrun
    exact ih (hkeep hs hstep) hrest

section

variable {s : State}

/-- An ended run has an outcome, made of the state's own fields (R104). -/
theorem runOutcome_of_ended (h : s.status ≠ .running) :
    runOutcome s = some
      { status := s.status, err := s.err, pc := s.pc, acc := s.acc, cf := s.cf, zf := s.zf,
        dbg := s.dbg, mem := s.mem, log := s.log } := by
  unfold runOutcome
  split
  · contradiction
  · rfl
  · rfl

/-- The exit class is zero for a clean end alone (R229, D24). -/
theorem exitClass_eq_zero_iff (st : Status) : exitClass st = some .zero ↔ st = .halted := by
  cases st <;> simp [exitClass]

/-- An ended state has HALT set, and an error reason exactly if it is `Errored`. -/
theorem statusAdmitted_ended {st : Status} {halt : Bool} {err : Option Cause}
    (h : statusAdmitted st halt err) (hended : st ≠ .running) :
    halt = true ∧ (st = .errored ↔ err ≠ none) := by
  cases st with
  | running => contradiction
  | halted => obtain ⟨hhalt, hnone⟩ := h; simp [hhalt, hnone]
  | errored => obtain ⟨hhalt, hsome⟩ := h; simp [hhalt, hsome]

/-- The log of an ended run: `Start` first, `HaltNotice` last. -/
theorem logAdmitted_ended (h : logAdmitted s) (hended : s.status ≠ .running) :
    s.log.head? = some .start ∧ s.log.getLast? = some .haltNotice := by
  obtain ⟨hfresh, hstarted, hend⟩ := h
  have hrun : s.started = true := by
    by_contra hnot
    exact hended (hfresh (by simpa using hnot)).2
  exact ⟨hstarted hrun, hend hended⟩

end

end Sys2Proof.Machine

namespace Sys2Proof

open Sys2Proof.Machine

/-- Settles O51: the invariant holds at reset (`resetWith_inv`) and every step keeps it, so it holds where
the run ends, and there its clauses on the status and on the log are the claim. -/
theorem endedRunHasItsOutcome : Obligations.EndedRunHasItsOutcome := by
  rintro p m t hp hm ⟨k, hrun, hended⟩
  have hinv : t.Inv := reaches_keeps (stepKeepsTheInvariant _ _) (resetWith_inv hp hm) hrun
  obtain ⟨hhalt, herr⟩ := statusAdmitted_ended hinv.status_ok hended
  obtain ⟨hfirst, hlast⟩ := logAdmitted_ended hinv.log_ok hended
  exact ⟨hhalt, hfirst, hlast, herr, runOutcome_of_ended hended, exitClass_eq_zero_iff _⟩

/-- Settles O26: an `Invalid` fetch raises `Fatal(MalformedWord)` and executes nothing. -/
theorem malformedWordEndsTheRun : Obligations.MalformedWordEndsTheRun := by
  intro s hs hread
  exact ⟨_, step_of_invalid hs hread, by simp, by simp, by simp, by simp, by simp,
    fatalCycle_log s .malformedWord⟩

/-- Settles O31: the fetch and the execute stage always answer a next state, and the post-cycle phase
follows it (`step_next_of_running`). -/
theorem runningCoreAlwaysCompletesItsCycle : Obligations.RunningCoreAlwaysCompletesItsCycle := by
  intro s hs
  obtain ⟨u, -, hstep⟩ := step_next_of_running s hs
  exact ⟨postCycle u, hstep⟩

/-- Settles O34: the start of the cycle emits `Start` where the run has not started, and no later phase
emits it (`step_appendsNoStart`). -/
theorem startComesFirstAndOnce : Obligations.StartComesFirstAndOnce := by
  refine ⟨fun p m => ?_, fun s t hstep => ⟨step_started hstep, ?_⟩⟩
  · obtain ⟨t, hstep⟩ := runningCoreAlwaysCompletesItsCycle (State.resetWith p m) rfl
    obtain ⟨es, hlog, hes⟩ := step_appendsNoStart hstep
    exact ⟨t, es, hstep, hlog, hes⟩
  · rw [← beginCycle_log_append]
    exact step_appendsNoStart hstep

/-- Settles O48: a cycle that ends `Errored` raised a fatal error at the start of the cycle's state
(`step_errored`), and neither that nor the post-cycle phase writes more than stated. -/
theorem fatalErrorIsPrecise : Obligations.FatalErrorIsPrecise := by
  intro s t _ _ herr hstep ht
  obtain ⟨r, rfl⟩ := step_errored herr hstep ht
  exact ⟨by simp, by simp, by simp, by simp, fun hdbg => by simp [hdbg], r, by simp,
    fatalCycle_log s r⟩

/-- Settles O23: the execute stage always answers, and the step is its post-cycle phase
(`step_of_decode`). -/
theorem stepRunsTheDecodedInstruction : Obligations.StepRunsTheDecodedInstruction := by
  intro s w i hs hread hdecode
  obtain ⟨u, hexec⟩ := exec_next i (beginCycle s)
  exact ⟨u, beginCycle_eq s ▸ hexec, step_of_decode hs hread hdecode hexec⟩

/-- Settles O24: the cycle is the post-cycle phase after DBG is set (`step_of_empty`), which with HALT and
`jumped` false advances the pc. -/
theorem emptyFetchTurnsDebugOn : Obligations.EmptyFetchTurnsDebugOn := by
  intro s hs hhalt hbound hread
  rw [step_of_empty hs hread, postCycle_eq, postEvents_emptyFetch, beginCycle_eq]
  simp [emptyFetch, hhalt, hbound, Bool.and_comm]

/-- Settles O27: the post-cycle phase field by field. -/
theorem postCyclePausesWarnsAndClears : Obligations.PostCyclePausesWarnsAndClears := fun s =>
  ⟨postCycle_cf s, postCycle_zf s, postCycle_log s, postCycle_mem s, postCycle_acc s,
    postCycle_dbg s, postCycle_halt s, postCycle_err s⟩

/-- Settles O28: `postCycle_status` and `postCycle_pc` at each value of HALT, `jumped` and
`PC_BOUND`. -/
theorem postCycleHaltsOrAdvances : Obligations.PostCycleHaltsOrAdvances := by
  intro s
  rw [postCycle_pc, postCycle_status, endStatus_eq]
  refine ⟨fun hhalt => ?_, fun hhalt => ?_, fun hhalt hjumped => ?_, fun hhalt hjumped => ?_⟩
  · simp [hhalt]
  · simp [hhalt]
  · simp [hjumped]
  · exact ⟨fun hbound => by simp [hhalt, hjumped, hbound],
      fun w hbound => by simp [hhalt, hjumped, hbound]⟩

/-- Settles O30: a step with a next state is a cycle of a running core (`step_next`), and the two faults
are read off `step`. -/
theorem terminalStatesTakeNoStep : Obligations.TerminalStatesTakeNoStep := by
  intro s hended
  refine ⟨fun t hstep => hended (step_next hstep).1, fun hhalted => ?_, fun herrored => ?_⟩
  · rw [step, hhalted]
  · rw [step, herrored]

/-- Settles O32: the placed word is at the pc of a running core (`read_withFetchWord`), so its cycle is
that of the word (`step_of_word`). -/
theorem placedWordIsTheNextExecuted : Obligations.PlacedWordIsTheNextExecuted := by
  intro s w hw
  have hread := read_withFetchWord s 8 w
  have hmod : w % 2 ^ 8 = w := Nat.mod_eq_of_lt hw
  rw [hmod] at hread
  exact step_of_word rfl hread

end Sys2Proof
end

section
/-! PROOFS. The statements of 41_data_transfer.md: LDA where its cell holds a word (R110, R111), STA where
A holds a value (R112), and LDI (R113). -/

namespace Sys2Proof

/-! ### The two fields of a word as numbers -/

theorem opField_toNat (w : Word) : (opField w).toNat = w.toNat / 16 := by
  have hlt : w.toNat / 16 < 16 := Nat.div_lt_of_lt_mul w.isLt
  rw [opField, BitVec.extractLsb'_toNat, Nat.shiftRight_eq_div_pow]
  exact Nat.mod_eq_of_lt hlt

/-- A data word is the number in its low field (R12). -/
theorem joinNibbles_zero_toNat (lo : Nibble) : (joinNibbles 0b0000#4 lo).toNat = lo.toNat :=
  (BitVec.toNat_append 0b0000#4 lo).trans (by simp)

end Sys2Proof

namespace Sys2Proof.Machine

/-! ### LDA -/

/-- Under `OperandField` LDA reads the cell of its operand (R111, D28). -/
theorem exec_lda_of_operandField {s : State} (h : s.params.ldaAddrSelect = .operandField)
    (imm : Nibble) : exec (.lda imm) s = .next (loadHighNibble s (s.mem.read imm.toNat)) := by
  simp only [exec, execLda, h, ldaAddr_operandField]

/-- From a word LDA takes the bits 7..4, which are its quotient by 16 (R110). -/
theorem loadHighNibble_word (s : State) (v : Word) :
    loadHighNibble s (.word v) = s.setAcc ((v.toNat / 16 : Nat) : Int) := by
  rw [loadHighNibble, opField_toNat]

/-! ### LDI -/

/-- A trace appends its event in debug mode, and writes nothing but the log (R205). -/
theorem trace_eq_with_log (s : State) (e : Event) :
    s.trace e = { s with log := if s.dbg then s.log ++ [e] else s.log } := by
  rw [trace_eq]
  split <;> rfl

end Sys2Proof.Machine

namespace Sys2Proof

open Sys2Proof.Machine

/-- Settles O7: each value of `LDA_ADDR_SELECT` names its cell (`exec_lda_of_opcodeField`,
`exec_lda_of_operandField`), and from either cell the word's high field is loaded. -/
theorem ldaLoadsTheHighNibble : Obligations.LdaLoadsTheHighNibble := by
  intro imm s v
  refine ⟨fun hsel hread => ?_, fun hsel hread => ?_⟩
  · rw [exec_lda_of_opcodeField hsel, hread, loadHighNibble_word, State.setAcc]
  · rw [exec_lda_of_operandField hsel, hread, loadHighNibble_word, State.setAcc]

/-- Settles O9: STA is one store (`exec_sta_value`), so the claim is what a read returns after a write, and
the two fields of the word stored. -/
theorem staStoresTheLowNibble : Obligations.StaStoresTheLowNibble := by
  intro imm s a hacc
  refine ⟨_, exec_sta_value imm hacc, ⟨_, read_write_same _ _ _, opField_joinNibbles _ _, ?_⟩,
    fun b hb => read_write_other _ _ _ hb, rfl⟩
  rw [joinNibbles_zero_toNat, low4_toNat]

/-- Settles O10: the opcode 0101 is LDI's in the map, and LDI is a write of A followed by a trace. -/
theorem ldiLoadsTheImmediate : Obligations.LdiLoadsTheImmediate :=
  ⟨fun imm => decodeWord_joinNibbles 0b0101#4 imm,
    fun imm s => congrArg Host.Outcome.next (trace_eq_with_log (s.setAcc (immValue imm)) _)⟩

end Sys2Proof
end

section
/-! PROOFS. The statements of 42_arithmetic.md: ADD (R130 to R132) and SUB (R133, R134) where A holds a
value, ADD's trace within its cycle (R132), and the two flags over a step (R135). -/

namespace Sys2Proof.Machine

/-! ### The carry path of ADD -/

theorem addResult_of_le (p : Params) {sum : Int} (h : sum ≤ 15) : addResult p sum = sum := by
  simp [addResult, addCarry, h]

/-- On the carry path ADD stores the entry of `ADD_CARRY_TRUNC` that the excess over 16 selects
(R131). -/
theorem addResult_carry (p : Params) (k : Fin 15) :
    addResult p (16 + (k.val : Int)) = (p.addCarryTrunc[k].toNat : Int) := by
  have hcarry : addCarry (16 + (k.val : Int)) = true := decide_eq_true (by omega)
  rw [addResult, if_pos hcarry, addCarryTrunc_entry]

/-- The default truncation maps 16 + k to k (R131, D7). -/
theorem dropLeadingBit_entry : ∀ k : Fin 15, Config.dropLeadingBit[k].toNat = k.val := by decide

/-! ### The flags of one result -/

/-- A sum does not both carry and vanish (R135). -/
theorem not_addCarry_and_addZero (sum : Int) : ¬ (addCarry sum = true ∧ addZero sum = true) := by
  simp only [addCarry, addZero, decide_eq_true_eq]
  omega

/-- A difference is not both negative and zero (R135). -/
theorem not_subBorrow_and_subZero (diff : Int) :
    ¬ (subBorrow diff = true ∧ subZero diff = true) := by
  simp only [subBorrow, subZero, decide_eq_true_eq]
  omega

/-! ### ADD and SUB on a value of A -/

section

variable {s : State} {a : Int}

/-- Both instructions end alike: the flags, the trace and A are all they write. -/
theorem setFlags_trace_setAcc (s : State) (c z : Bool) (e : Event) (v : Int) :
    ((s.setFlags c z).trace e).setAcc v = { s with
      acc := .value v
      cf := c
      zf := z
      log := if s.dbg then s.log ++ [e] else s.log } := by
  rw [trace_eq_with_log]
  rfl

theorem exec_add_value (imm : Nibble) (h : s.acc = .value a) :
    exec (.add imm) s = .next { s with
      acc := .value (addResult s.params (a + imm.toNat))
      cf := addCarry (a + imm.toNat)
      zf := addZero (a + imm.toNat)
      log := if s.dbg then s.log ++ [.traceAdd a imm] else s.log } :=
  congrArg Host.Outcome.next ((withAcc_value _ h).trans (setFlags_trace_setAcc s _ _ _ _))

theorem exec_sub_value (imm : Nibble) (h : s.acc = .value a) :
    exec (.sub imm) s = .next (if accInRange s.params.accBound (a - imm.toNat) then { s with
        acc := .value (a - imm.toNat)
        cf := subBorrow (a - imm.toNat)
        zf := subZero (a - imm.toNat)
        log := if s.dbg then s.log ++ [.traceSub a imm] else s.log }
      else s.raiseFatal .accumulatorRange) := by
  rw [← setFlags_trace_setAcc]
  exact congrArg Host.Outcome.next (withAcc_value _ h)

end

/-! ### The events of ADD and of the post-cycle phase -/

section

variable {s : State} {a : Int}

/-- ADD appends its trace in debug mode and nothing otherwise, and keeps the pc (R132). -/
theorem exec_add_log (imm : Nibble) (h : s.acc = .value a) :
    ∃ u, exec (.add imm) s = .next u ∧ u.pc = s.pc ∧
      u.log = s.log ++ (if s.dbg then [.traceAdd a imm] else []) := by
  refine ⟨_, exec_add_value imm h, rfl, ?_⟩
  dsimp only
  split
  · rfl
  · exact (List.append_nil _).symm

/-- The events that the pause and the warnings can emit (R96 to R98). -/
theorem mem_postEvents {e : Event} (h : e ∈ postEvents s) :
    e = .pause ∨ e = .warnCF s.pc ∨ e = .warnZF s.pc := by
  rw [postEvents, List.mem_append] at h
  obtain hpause | hwarn := h
  · exact .inl (List.mem_singleton.1 (List.mem_ite_nil_right.1 hpause).2)
  · right
    split_ifs at hwarn
    · exact .inl (List.mem_singleton.1 hwarn)
    · exact .inr (List.mem_singleton.1 hwarn)
    · cases hwarn

/-- The post-cycle phase appends pause, warning and halt-notice events alone (R96 to R99). -/
theorem postCycle_appends (s : State) :
    ∃ post, (postCycle s).log = s.log ++ post ∧
      ∀ e ∈ post, e = .pause ∨ e = .warnCF s.pc ∨ e = .warnZF s.pc ∨ e = .haltNotice := by
  refine ⟨_, (postCycle_log s).trans (List.append_assoc _ _ _), fun e he => ?_⟩
  obtain hpost | hend := List.mem_append.1 he
  · obtain hpause | hcf | hzf := mem_postEvents hpost
    · exact .inl hpause
    · exact .inr (.inl hcf)
    · exact .inr (.inr (.inl hzf))
  · exact .inr (.inr (.inr (List.mem_singleton.1 (List.mem_ite_nil_right.1 hend).2)))

end

/-! ### The two flags over a step -/

section

variable {s t : State}

/-- The execute stage keeps the flags exclusive: only ADD and SUB write them, each from one result. -/
theorem exec_flagsExclusive {i : Instr} (hs : flagsExclusive s) (h : exec i s = .next t) :
    flagsExclusive t := by
  cases exec_executed h with
  | add imm a hacc => simpa [flagsExclusive] using not_addCarry_and_addZero (a + immValue imm)
  | sub imm a hacc hrange =>
    simpa [flagsExclusive] using not_subBorrow_and_subZero (a - immValue imm)
  | _ => simpa [flagsExclusive] using hs

theorem fetchExecute_flagsExclusive (hs : flagsExclusive s) (h : fetchExecute s = .next t) :
    flagsExclusive t := by
  obtain ⟨-, rfl⟩ | ⟨-, rfl⟩ | ⟨w, op, -, -, rfl⟩ | ⟨w, i, -, -, hexec⟩ := fetchExecute_next h
  · exact hs
  · exact hs
  · exact hs
  · exact exec_flagsExclusive hs hexec

/-- The post-cycle phase only clears flags (R97, R98). -/
theorem postCycle_flagsExclusive (hs : flagsExclusive s) : flagsExclusive (postCycle s) := by
  rintro ⟨hcf, hzf⟩
  rw [postCycle_cf, Bool.and_eq_true] at hcf
  rw [postCycle_zf, Bool.and_eq_true] at hzf
  exact hs ⟨hcf.1, hzf.1⟩

theorem step_flagsExclusive (hs : flagsExclusive s) (h : step s = .next t) : flagsExclusive t := by
  obtain ⟨-, u, hexec, rfl⟩ := step_next h
  have hbegin : flagsExclusive (beginCycle s) := by simpa [flagsExclusive] using hs
  exact postCycle_flagsExclusive (fetchExecute_flagsExclusive hbegin hexec)

end

end Sys2Proof.Machine

namespace Sys2Proof

open Sys2Proof.Machine

/-- Settles O13: ADD's own event is its trace (`exec_add_log`), and the post-cycle phase then appends its
events at the same pc (`postCycle_appends`). -/
theorem addTracesBeforeThePostCyclePhase : Obligations.AddTracesBeforeThePostCyclePhase := by
  intro imm s a hacc
  refine ⟨?_, fun w hs hstarted hread hdecode => ?_⟩
  · obtain ⟨u, hexec, -, hlog⟩ := exec_add_log imm hacc
    exact ⟨u, hexec, hlog⟩
  · obtain ⟨u, hexec, hpc, hlog⟩ := exec_add_log imm ((beginCycle_acc s).trans hacc)
    obtain ⟨post, hpost, hmem⟩ := postCycle_appends u
    rw [beginCycle_log, if_pos hstarted, beginCycle_dbg] at hlog
    rw [hpc, beginCycle_pc] at hmem
    exact ⟨_, post, step_of_decode hs hread hdecode hexec, by rw [hpost, hlog], hmem⟩

/-- Settles O41: the execute stage leaves at most one flag set (`exec_flagsExclusive`), and the other
phases set none. -/
theorem stepKeepsFlagsExclusive : Obligations.StepKeepsFlagsExclusive :=
  fun _ _ => step_flagsExclusive

/-- Settles O11: `exec_add_value`, with the sum itself stored up to 15 (`addResult_of_le`) and the
parameter's entry above (`addResult_carry`). -/
theorem addStoresTheSumAndFlags : Obligations.AddStoresTheSumAndFlags := by
  intro imm s a hacc
  rw [exec_add_value imm hacc]
  refine ⟨fun hsum => ?_, fun k hsum => ?_⟩
  · have hcarry : addCarry (a + imm.toNat) = false := decide_eq_false (by omega)
    rw [addResult_of_le _ hsum, hcarry, addZero]
  · have hcarry : addCarry (16 + (k.val : Int)) = true := decide_eq_true (by omega)
    have hzero : addZero (16 + (k.val : Int)) = false := decide_eq_false (by omega)
    rw [hsum, addResult_carry, hcarry, hzero]

/-- Settles O12: the sum is 16 + k with k at most 14, so O11 gives the entry k of the truncation, which by
default is k (`dropLeadingBit_entry`). -/
theorem addCarryPathDropsTheLeadingBit : Obligations.AddCarryPathDropsTheLeadingBit := by
  intro imm s a htrunc hacc hsum ha
  have himm := imm.isLt
  obtain ⟨k, hk⟩ : ∃ k : Fin 15, a + imm.toNat = 16 + (k.val : Int) :=
    ⟨⟨(a + imm.toNat - 16).toNat, by omega⟩, by dsimp only; omega⟩
  refine ⟨_, (addStoresTheSumAndFlags imm s a hacc).2 k hk, ?_, rfl, rfl⟩
  dsimp only
  rw [htrunc, dropLeadingBit_entry, hk, add_sub_cancel_left]

/-- Settles O14: either form of `ACC_BOUND` in the premise admits the difference, so SUB takes its
writing branch (`exec_sub_value`). -/
theorem subStoresTheDifferenceAndFlags : Obligations.SubStoresTheDifferenceAndFlags := by
  intro imm s a hacc hbound
  have hrange : accInRange s.params.accBound (a - imm.toNat) = true := by
    obtain hunbounded | ⟨w, hsigned, hle⟩ := hbound
    · rw [hunbounded, accInRange_unbounded]
    · rw [hsigned]
      exact (accInRange_signed w _).2 hle
  rw [exec_sub_value imm hacc, if_pos hrange, subBorrow, subZero]

/-- Settles O15: `ACC_BOUND` does not admit the difference, so SUB raises `Fatal(AccumulatorRange)` in
place of its writes (`exec_sub_value`). -/
theorem subBelowTheSignedRangeIsFatal : Obligations.SubBelowTheSignedRangeIsFatal := by
  intro imm s a w hacc hsigned hlt
  have hrange : ¬ accInRange s.params.accBound (a - imm.toNat) = true := by
    rw [hsigned, accInRange_signed]
    exact not_le.2 hlt
  rw [exec_sub_value imm hacc, if_neg hrange]
  rfl

end Sys2Proof
end

section
/-! PROOFS. The statements of 43_control.md: JMP (R150), JC and JZ (R151, R152), and the JMP to its own
cell, which runs for ever (R104). -/

namespace Sys2Proof.Machine

/-! ### The cycle of a jump -/

section

variable {s : State} {w : Word} {imm : Nibble}

/-- While HALT is false the cycle of a jump ends at its target where it is taken, and advances the pc
where it is not (R100). -/
theorem postCycle_jumpIf_pc (taken : Bool) (imm : Nibble) (hhalt : s.halt = false) :
    (postCycle (jumpIf taken imm (beginCycle s))).pc =
      if taken then imm.toNat else nextPc s.params.pcBound s.pc := by
  cases taken <;> simp [hhalt]

/-- While HALT is false a jump, taken or not, does not end the run. -/
theorem postCycle_jumpIf_status (taken : Bool) (imm : Nibble) (hhalt : s.halt = false) :
    (postCycle (jumpIf taken imm (beginCycle s))).status = s.status := by
  simp [hhalt]

/-- In debug mode with CF set the pause and the warning follow the jump, so the warning carries the pc
that the jump left (R97, D25). -/
theorem postEvents_jumpIf (taken : Bool) (imm : Nibble) (hdbg : s.dbg = true) (hcf : s.cf = true) :
    postEvents (jumpIf taken imm s) = [.pause, .warnCF (if taken then imm.toNat else s.pc)] := by
  simp [postEvents, hdbg, hcf]

theorem step_of_jmp (hs : s.status = .running) (hread : s.mem.read s.pc = .word w)
    (hdecode : decodeWord w = .ok (.jmp imm)) :
    step s = .next (postCycle (jumpIf true imm (beginCycle s))) :=
  step_of_decode hs hread hdecode rfl

/-- The start of the cycle keeps CF, so JC reads the CF of the state before the step (R151). -/
theorem step_of_jc (hs : s.status = .running) (hread : s.mem.read s.pc = .word w)
    (hdecode : decodeWord w = .ok (.jc imm)) :
    step s = .next (postCycle (jumpIf s.cf imm (beginCycle s))) := by
  rw [← beginCycle_cf]
  exact step_of_decode hs hread hdecode rfl

/-- The start of the cycle keeps ZF, so JZ reads the ZF of the state before the step (R152). -/
theorem step_of_jz (hs : s.status = .running) (hread : s.mem.read s.pc = .word w)
    (hdecode : decodeWord w = .ok (.jz imm)) :
    step s = .next (postCycle (jumpIf s.zf imm (beginCycle s))) := by
  rw [← beginCycle_zf]
  exact step_of_decode hs hread hdecode rfl

end

/-! ### Runs that never end -/

/-- A run never ends where every step keeps a predicate that only running states meet: a running core
always completes its cycle. -/
theorem neverEnds_of_keeps {P : State → Prop} (hrunning : ∀ {s}, P s → s.status = .running)
    (hkeep : ∀ {s t}, P s → step s = .next t → P t) {s : State} (hs : P s) : NeverEnds s := by
  intro k
  induction k generalizing s with
  | zero => exact ⟨s, run_zero s, hrunning hs⟩
  | succ k ih =>
    obtain ⟨u, -, hstep⟩ := step_next_of_running s (hrunning hs)
    obtain ⟨t, hrest, ht⟩ := ih (hkeep hs hstep)
    exact ⟨t, reaches_succ.2 ⟨_, hstep, hrest⟩, ht⟩

/-- `t` is a running core, HALT false, with the pc, the memory and A of `s`: what the cycle of a JMP to
its own cell keeps. -/
structure StaysAt (s t : State) : Prop where
  running : t.status = .running
  halt : t.halt = false
  pc : t.pc = s.pc
  mem : t.mem = s.mem
  acc : t.acc = s.acc

/-- A step keeps `StaysAt s` where the word at the pc of `s` is a JMP to that pc: the word is fetched
again, and its target is where it stands. -/
theorem StaysAt.step {s t u : State} {w : Word} {imm : Nibble} (h : StaysAt s t)
    (hread : s.mem.read s.pc = .word w) (hdecode : decodeWord w = .ok (.jmp imm))
    (hself : imm.toNat = s.pc) (hstep : step t = .next u) : StaysAt s u := by
  obtain ⟨hrunning, hhalt, hpc, hmem, hacc⟩ := h
  have hfetch : t.mem.read t.pc = .word w := by rw [hmem, hpc, hread]
  rw [step_of_jmp hrunning hfetch hdecode] at hstep
  cases hstep
  exact {
    running := (postCycle_jumpIf_status true imm hhalt).trans hrunning
    halt := by simp [hhalt]
    pc := (postCycle_jumpIf_pc true imm hhalt).trans hself
    mem := by simp [hmem]
    acc := by simp [hacc] }

end Sys2Proof.Machine

namespace Sys2Proof

open Sys2Proof.Machine

/-- Settles O53: every step keeps `StaysAt s` (`StaysAt.step`), which `s` itself meets, so no run from `s`
ends and every state it reaches has the pc, the memory and A of `s`. -/
theorem jumpToItselfNeverEnds : Obligations.JumpToItselfNeverEnds := by
  intro s w imm hs hhalt hread hdecode hself
  have hstart : StaysAt s s := ⟨hs, hhalt, rfl, rfl, rfl⟩
  have hkeep {t u : State} (h : StaysAt s t) (hstep : step t = .next u) : StaysAt s u :=
    h.step hread hdecode hself hstep
  refine ⟨neverEnds_of_keeps StaysAt.running hkeep hstart, fun k t hrun => ?_⟩
  have hend : StaysAt s t := reaches_keeps hkeep hstart hrun
  exact ⟨hend.pc, hend.mem, hend.acc⟩

/-- Settles O17: the cycle of a JMP is the post-cycle phase after the jump (`step_of_jmp`), which keeps
the target and warns at it. -/
theorem jmpGoesToItsTarget : Obligations.JmpGoesToItsTarget := by
  refine ⟨fun imm => decodeWord_joinNibbles 0b0110#4 imm, fun imm s => rfl,
    fun imm s w hs hhalt hread hdecode => ?_⟩
  refine ⟨_, step_of_jmp hs hread hdecode, postCycle_jumpIf_pc true imm hhalt,
    (postCycle_jumpIf_status true imm hhalt).trans hs, fun hdbg hcf => ?_⟩
  have hevents := postEvents_jumpIf (s := beginCycle s) true imm (by simp [hdbg]) (by simp [hcf])
  simp [hevents, hhalt]

/-- Settles O18: the execute stage of each is `jumpIf` on its flag, and its cycle ends where
`postCycle_jumpIf_pc` says. -/
theorem conditionalJumpsReadOneFlag : Obligations.ConditionalJumpsReadOneFlag := by
  intro imm s
  refine ⟨rfl, rfl, fun w hs hhalt hbound hread => ?_⟩
  have hpc (taken : Bool) : (postCycle (jumpIf taken imm (beginCycle s))).pc =
      if taken then imm.toNat else s.pc + 1 := by
    rw [postCycle_jumpIf_pc taken imm hhalt, hbound, nextPc_unbounded]
  exact ⟨fun hdecode => ⟨_, step_of_jc hs hread hdecode, hpc s.cf⟩,
    fun hdecode => ⟨_, step_of_jz hs hread hdecode, hpc s.zf⟩⟩

end Sys2Proof
end

section
/-! PROOFS. The statements of 44_system.md: NOP (R170), DEBUG (R171), OUT (R172) and HLT (R173). -/

namespace Sys2Proof.Machine

variable {s : State}

/-! ### OUT -/

/-- OUT on a value of A is one event (R172). -/
theorem exec_out_value {a : Int} (h : s.acc = .value a) : exec .out s = .next (s.emit (.out a)) :=
  congrArg Host.Outcome.next (withAcc_value _ h)

/-- OUT while A holds no value is the fatal error of every read of A (R194). -/
theorem exec_out_unset (h : s.acc = .unset) :
    exec .out s = .next (s.raiseFatal .unsetAccumulator) :=
  congrArg Host.Outcome.next (withAcc_unset _ h)

/-- Everything that OUT can do: the choice is made by A alone. -/
theorem exec_out_cases (s : State) :
    (s.acc = .unset ∧ exec .out s = .next (s.raiseFatal .unsetAccumulator)) ∨
      ∃ a, s.acc = .value a ∧ exec .out s = .next (s.emit (.out a)) := by
  cases hacc : s.acc with
  | unset => exact .inl ⟨rfl, exec_out_unset hacc⟩
  | value a => exact .inr ⟨a, rfl, exec_out_value hacc⟩

/-! ### The pause and the warnings -/

/-- Outside debug mode there is no pause and no warning (R96, R97). -/
theorem postEvents_of_not_dbg (h : s.dbg = false) : postEvents s = [] := by
  simp [postEvents, h]

/-- HLT runs before the pause and the warnings, and they do not depend on HALT (R96 to R98). -/
theorem postEvents_halt_beginCycle (s : State) :
    postEvents { beginCycle s with halt := true } = postEvents s := postEvents_beginCycle s

/-! ### The cycle of a HLT -/

/-- HLT sets HALT after the start of the cycle, and the post-cycle phase of the same cycle sees it
(R173). -/
theorem step_of_hlt {w : Word} (hs : s.status = .running) (hread : s.mem.read s.pc = .word w)
    (hdecode : decodeWord w = .ok .hlt) :
    step s = .next (postCycle { beginCycle s with halt := true }) :=
  step_of_decode hs hread hdecode rfl

end Sys2Proof.Machine

namespace Sys2Proof

open Sys2Proof.Machine

/-- Settles O21: the cycle of a HLT is the post-cycle phase with HALT set (`step_of_hlt`), whose halt check
ends the run `Halted` while err is none, and an ended run has no next cycle (`terminalStatesTakeNoStep`). -/
theorem hltEndsTheRun : Obligations.HltEndsTheRun := by
  refine ⟨fun imm => decodeWord_joinNibbles 0b1111#4 imm, fun s => rfl,
    fun s w hs herr hread hop => ?_⟩
  refine ⟨_, step_of_hlt hs hread (decodeWord_of_opField hop), by simp [herr], by simp, by simp,
    fun hstarted => ?_, (terminalStatesTakeNoStep _ (by simp [herr])).1⟩
  rw [postCycle_log, postEvents_halt_beginCycle]
  simp [hstarted]

/-- Settles O6: the cycle of a NOP is the post-cycle phase alone (`step_of_nop`), which outside debug mode
emits nothing and with HALT false advances the pc. -/
theorem nopOnlyAdvancesThePc : Obligations.NopOnlyAdvancesThePc := by
  refine ⟨fun imm => decodeWord_joinNibbles 0b0000#4 imm, fun s => rfl,
    fun s w hs hstarted hhalt hdbg hbound hread hop => ?_⟩
  have hevents : postEvents { s with jumped := false } = [] := postEvents_of_not_dbg hdbg
  rw [step_of_nop hs hstarted hread (decodeWord_of_opField hop), postCycle_eq, hevents]
  simp [hdbg, hhalt, hbound]

/-- Settles O19: DEBUG is a write of DBG followed by one event, in both directions. -/
theorem debugTogglesAndReports : Obligations.DebugTogglesAndReports := fun _ => rfl

/-- Settles O20: OUT is one event where A holds a value (`exec_out_value`) and a fatal error where it does
not (`exec_out_unset`), and neither reads or writes CF. -/
theorem outReportsTheAccumulator : Obligations.OutReportsTheAccumulator := by
  refine ⟨fun s a hacc => exec_out_value hacc, fun s t b hexec => ?_⟩
  obtain ⟨hacc, hout⟩ | ⟨a, hacc, hout⟩ := exec_out_cases s <;> rw [hout] at hexec <;> cases hexec
  · exact exec_out_unset hacc
  · exact exec_out_value hacc

end Sys2Proof
end

section
/-! PROOFS. The statements of 60_exceptions.md: a fetched opcode outside the map (R192), the two
accumulator faults (R194), and LDA from a cell that holds no word (R195). -/

namespace Sys2Proof

/-- The four opcodes that the map leaves out do not decode, whatever the operand field holds (R76). -/
theorem decodeWord_of_unmapped {w : Word}
    (h : opField w ∈ [0b1010#4, 0b1011#4, 0b1100#4, 0b1101#4]) :
    decodeWord w = .error (.invalidOpcode (opField w)) := by
  rw [decodeWord]
  generalize opField w = op at h ⊢
  simp only [List.mem_cons, List.not_mem_nil, or_false] at h
  obtain rfl | rfl | rfl | rfl := h
  all_goals rfl

end Sys2Proof

namespace Sys2Proof.Machine

/-! ### The cycle of an opcode outside the map -/

/-- The cycle of a word that does not decode is the post-cycle phase of `Fatal(InvalidOpcode)` raised at
the start of the cycle (R192). -/
theorem step_of_invalidOpcode {s : State} {w : Word} {op : Nibble} (hs : s.status = .running)
    (hread : s.mem.read s.pc = .word w) (hdecode : decodeWord w = .error (.invalidOpcode op)) :
    step s = .next (postCycle ((beginCycle s).raiseFatal .invalidOpcode)) := by
  rw [step_of_word hs hread, executeWord_of_error hdecode, finishCycle]

/-! ### What each cause of a fatal error asks for -/

/-- What must hold at the fetch for the cycle to raise `Fatal(r)` (R192 to R195); `fetchExecute_raises`
ties it to the model. -/
def Raisable (s : State) : Cause → Prop
  | .invalidOpcode => ∃ w op, s.mem.read s.pc = .word w ∧ decodeWord w = .error (.invalidOpcode op)
  | .malformedWord => s.mem.read s.pc = .invalid
  | .unsetAccumulator => s.acc = .unset
  | .ldaSourceEmpty => ∃ imm : Nibble,
      s.mem.read (ldaAddr s.params.ldaAddrSelect (Instr.opcode (.lda imm)) imm) = .empty
  | .ldaSourceInvalid => ∃ imm : Nibble,
      s.mem.read (ldaAddr s.params.ldaAddrSelect (Instr.opcode (.lda imm)) imm) = .invalid
  | .accumulatorRange => ∃ (a : Int) (imm : Nibble),
      s.acc = .value a ∧ accInRange s.params.accBound (a - immValue imm) = false

/-- From `s` to `t` err is kept, or `t` is `s` with a fatal error whose cause `s` gives. -/
def KeepsErrOrRaises (s t : State) : Prop :=
  t.err = s.err ∨ ∃ r, t = s.raiseFatal r ∧ Raisable s r

section

variable {s t : State}

/-- A read of A raises nothing but `UnsetAccumulator` of its own; the rest is its continuation's. -/
theorem withAcc_raises {go : Int → State}
    (hgo : ∀ a, s.acc = .value a → KeepsErrOrRaises s (go a)) :
    KeepsErrOrRaises s (s.withAcc go) := by
  obtain ⟨hacc, hfatal⟩ | ⟨a, hacc, hvalue⟩ := withAcc_cases s go
  · exact .inr ⟨_, hfatal, hacc⟩
  · rw [hvalue]
    exact hgo a hacc

/-- Each instruction raises only the causes that the state gives. -/
theorem exec_raises {i : Instr} (h : exec i s = .next t) : KeepsErrOrRaises s t := by
  cases i with
  | lda imm =>
    cases h
    cases hcell : s.mem.read (ldaAddr s.params.ldaAddrSelect (Instr.opcode (.lda imm)) imm) with
    | empty => exact .inr ⟨_, rfl, imm, hcell⟩
    | invalid => exact .inr ⟨_, rfl, imm, hcell⟩
    | word v => exact .inl rfl
  | add imm => cases h; exact withAcc_raises fun a _ => .inl (by simp)
  | sub imm =>
    cases h
    refine withAcc_raises fun a hacc => ?_
    dsimp only
    split
    · exact .inl (by simp)
    · exact .inr ⟨_, rfl, a, imm, hacc, Bool.eq_false_iff.2 ‹_›⟩
  | sta imm => cases h; exact withAcc_raises fun a _ => .inl rfl
  | out => cases h; exact withAcc_raises fun a _ => .inl rfl
  | ldi imm => cases h; exact .inl (trace_err _ _)
  | jmp imm => cases h; exact .inl (jumpIf_err _ _ _)
  | jc imm => cases h; exact .inl (jumpIf_err _ _ _)
  | jz imm => cases h; exact .inl (jumpIf_err _ _ _)
  | nop | debug | hlt => cases h; exact .inl rfl

/-- The fetch and the execute stage raise only the causes that the state gives. -/
theorem fetchExecute_raises (h : fetchExecute s = .next t) : KeepsErrOrRaises s t := by
  obtain ⟨-, rfl⟩ | ⟨hread, rfl⟩ | ⟨w, op, hread, hdecode, rfl⟩ | ⟨w, i, -, -, hexec⟩ :=
    fetchExecute_next h
  · exact .inl rfl
  · exact .inr ⟨_, rfl, hread⟩
  · exact .inr ⟨_, rfl, w, op, hread, hdecode⟩
  · exact exec_raises hexec

/-- The start of the cycle writes nothing that a cause depends on. -/
theorem raisable_beginCycle (s : State) (r : Cause) : Raisable (beginCycle s) r ↔ Raisable s r := by
  cases r <;> simp [Raisable]

/-- A step keeps err, or records a cause that the state before it gives. -/
theorem step_err (h : step s = .next t) :
    t.err = s.err ∨ ∃ r, t.err = some r ∧ Raisable s r := by
  obtain ⟨-, u, hexec, rfl⟩ := step_next h
  rw [postCycle_err]
  obtain hkept | ⟨r, rfl, hr⟩ := fetchExecute_raises hexec
  · exact .inl (hkept.trans (beginCycle_err s))
  · exact .inr ⟨r, raiseFatal_err _ r, (raisable_beginCycle s r).1 hr⟩

/-! ### The two accumulator faults -/

/-- Where A has a value at reset, a state of the invariant gives no read of an unset A (R23, R194). -/
theorem not_raisable_unsetAccumulator (hinv : s.Inv) (hreset : s.params.aReset ≠ .unset) :
    ¬ Raisable s .unsetAccumulator := by
  intro (hacc : s.acc = .unset)
  have hadmitted := hinv.acc_ok
  rw [hacc] at hadmitted
  exact hreset hadmitted

/-- `ACC_BOUND = Unbounded` admits every difference (R133, R194). -/
theorem not_raisable_accumulatorRange (hbound : s.params.accBound = .unbounded) :
    ¬ Raisable s .accumulatorRange := by
  rintro ⟨a, imm, -, hrange⟩
  simp [hbound] at hrange

/-- A step that ends with a given error reason found the state giving it, where none stood before. -/
theorem raisable_of_step_err {r : Cause} (herr : s.err = none) (h : step s = .next t)
    (ht : t.err = some r) : Raisable s r := by
  obtain hkept | ⟨r', hraised, hr'⟩ := step_err h
  · rw [hkept, herr] at ht
    cases ht
  · rw [hraised] at ht
    cases ht
    exact hr'

/-- Between cycles a running core has no error reason (R33, R99). -/
theorem State.Inv.err_of_running (hinv : s.Inv) (hs : s.status = .running) : s.err = none := by
  have hstatus := hinv.status_ok
  rw [hs] at hstatus
  exact hstatus.2

end

end Sys2Proof.Machine

namespace Sys2Proof

open Sys2Proof.Machine

/-- Settles O25: an unmapped opcode does not decode (`decodeWord_of_unmapped`), so the cycle raises
`Fatal(InvalidOpcode)` and its halt check ends the run, after which no cycle runs
(`terminalStatesTakeNoStep`). -/
theorem invalidOpcodeEndsTheRun : Obligations.InvalidOpcodeEndsTheRun := by
  intro s w hs hread hop
  refine ⟨_, step_of_invalidOpcode hs hread (decodeWord_of_unmapped hop), by simp, by simp, by simp,
    by simp, by simp, by simp, by simp, fun hstarted => ?_,
    (terminalStatesTakeNoStep _ (by simp)).1⟩
  rw [fatalCycle_log, if_pos hstarted]

/-- Settles O50: a step from a state without an error reason records only a cause that the state gives
(`raisable_of_step_err`), and this state gives neither accumulator fault. -/
theorem noAccumulatorFaultWithValueAtReset : Obligations.NoAccumulatorFaultWithValueAtReset := by
  intro s t hinv hbound hreset hstep
  have herr : s.err = none := hinv.err_of_running (step_next hstep).1
  exact ⟨fun ht => not_raisable_unsetAccumulator hinv hreset (raisable_of_step_err herr hstep ht),
    fun ht => not_raisable_accumulatorRange hbound (raisable_of_step_err herr hstep ht)⟩

/-- Settles O8: each value of `LDA_ADDR_SELECT` names its cell (`exec_lda_of_opcodeField`,
`exec_lda_of_operandField`), and from a cell without a word all that LDA does is raise the cause. -/
theorem ldaWithoutAWordIsFatal : Obligations.LdaWithoutAWordIsFatal := by
  intro imm s a ha
  have hexec : exec (.lda imm) s = .next (loadHighNibble s (s.mem.read a)) := by
    cases hsel : s.params.ldaAddrSelect with
    | opcodeField =>
      rw [hsel] at ha
      rw [ha, exec_lda_of_opcodeField hsel]
    | operandField =>
      rw [hsel] at ha
      rw [ha, exec_lda_of_operandField hsel]
  refine ⟨fun hread => ?_, fun hread => ?_⟩
  · rw [hexec, hread, loadHighNibble, State.raiseFatal]
  · rw [hexec, hread, loadHighNibble, State.raiseFatal]

end Sys2Proof
end

section
/-! PROOFS. The statements of 70_reset_and_hazards.md: a pc past the array, from which no run ends (R227
(a)), what debug mode does to the flags (R225), and what ends a run (R227). -/

namespace Sys2Proof.Machine

/-! ### A pc past the array -/

/-- What holds after `k` steps carries over every run, where each step advances the count. -/
theorem reaches_counts {P : Nat → State → Prop}
    (hkeep : ∀ {k s t}, P k s → step s = .next t → P (k + 1) t) {k : Nat} {s t : State}
    (hs : P 0 s) (hrun : Reaches k s t) : P k t := by
  induction k generalizing P s with
  | zero => cases hrun; exact hs
  | succ k ih =>
    obtain ⟨u, hstep, hrest⟩ := reaches_succ.1 hrun
    exact ih (P := fun n => P (n + 1)) hkeep (hkeep hs hstep) hrest

/-- `t` is a running core, HALT false and the pc unbounded, `k` cells after `s` with the memory and A of
`s`, in debug mode once a cycle has run: what `k` fetches past the array leave (R93). -/
structure DriftedBy (s : State) (k : Nat) (t : State) : Prop where
  running : t.status = .running
  halt : t.halt = false
  unbounded : t.params.pcBound = .unbounded
  pc : t.pc = s.pc + k
  mem : t.mem = s.mem
  acc : t.acc = s.acc
  dbg : 0 < k → t.dbg = true

/-- From a pc past the array every step drifts one cell further: the cell fetched is `Empty`, and that is
no halt and no error. -/
theorem DriftedBy.step {s t u : State} {k : Nat} (h : DriftedBy s k t) (hpast : 16 ≤ s.pc)
    (hstep : step t = .next u) : DriftedBy s (k + 1) u := by
  have hread : t.mem.read t.pc = .empty :=
    read_of_le t.mem (h.pc ▸ Nat.le_add_right_of_le hpast)
  rw [emptyFetchTurnsDebugOn t h.running h.halt h.unbounded hread] at hstep
  cases hstep
  exact {
    running := h.running
    halt := h.halt
    unbounded := h.unbounded
    pc := congrArg (· + 1) h.pc
    mem := h.mem
    acc := h.acc
    dbg := fun _ => rfl }

/-! ### What a cycle in debug mode leaves of the flags -/

section

variable {s t : State}

/-- In debug mode the one warning of the post-cycle phase clears the only flag that can be set (R97,
R98). -/
theorem postCycle_flags_of_dbg (hs : flagsExclusive s) (hdbg : s.dbg = true) :
    (postCycle s).cf = false ∧ (postCycle s).zf = false := by
  rw [postCycle_cf, postCycle_zf, hdbg]
  refine ⟨Bool.and_false _, ?_⟩
  cases hcf : s.cf with
  | false => simp
  | true => simpa [flagsExclusive, hcf] using hs

/-! ### What ends a run -/

/-- The cell at pc holds a HLT. -/
def FetchesHlt (s : State) : Prop := ∃ w, s.mem.read s.pc = .word w ∧ decodeWord w = .ok .hlt

/-- The start of the cycle changes nothing that selects the word fetched. -/
@[simp] theorem fetchesHlt_beginCycle (s : State) : FetchesHlt (beginCycle s) ↔ FetchesHlt s := by
  simp [FetchesHlt]

theorem fetchesHlt_iff_of_decode {w : Word} {i : Instr} (hread : s.mem.read s.pc = .word w)
    (hdecode : decodeWord w = .ok i) : FetchesHlt s ↔ i = .hlt := by
  simp [FetchesHlt, hread, hdecode]

/-- The fetch and the execute stage of a HLT set HALT alone; those of anything else keep HALT and err, or
raise a fatal error. -/
theorem fetchExecute_halts (h : fetchExecute s = .next t) :
    (FetchesHlt s ∧ t = { s with halt := true }) ∨
      ¬ FetchesHlt s ∧ ((t.err = s.err ∧ t.halt = s.halt) ∨ ∃ r, t = s.raiseFatal r) := by
  obtain ⟨hread, rfl⟩ | ⟨hread, rfl⟩ | ⟨w, op, hread, hdecode, rfl⟩ |
    ⟨w, i, hread, hdecode, hexec⟩ := fetchExecute_next h
  · exact .inr ⟨by simp [FetchesHlt, hread], .inl ⟨rfl, rfl⟩⟩
  · exact .inr ⟨by simp [FetchesHlt, hread], .inr ⟨_, rfl⟩⟩
  · exact .inr ⟨by simp [FetchesHlt, hread, hdecode], .inr ⟨_, rfl⟩⟩
  · rw [fetchesHlt_iff_of_decode hread hdecode]
    by_cases hi : i = .hlt
    · subst hi
      cases hexec
      exact .inl ⟨rfl, rfl⟩
    · exact .inr ⟨hi, (exec_err_halt hexec).imp_left fun ⟨herr, hhalt⟩ => ⟨herr, hhalt hi⟩⟩

/-- The three ways a cycle ends, from a running core with HALT false and no error reason: a HLT ends the
run `Halted`, a fatal error ends it `Errored`, and after anything else it goes on. -/
theorem step_ends (hhalt : s.halt = false) (herr : s.err = none) (h : step s = .next t) :
    (FetchesHlt s ∧ t.status = .halted ∧ t.err = none) ∨
    (¬ FetchesHlt s ∧ t.status = .running ∧ t.err = none) ∨
    (¬ FetchesHlt s ∧ t.status = .errored ∧ t.err ≠ none) := by
  obtain ⟨hrunning, u, hexec, rfl⟩ := step_next h
  obtain ⟨hhlt, rfl⟩ | ⟨hhlt, ⟨hkept, hgoes⟩ | ⟨r, rfl⟩⟩ := fetchExecute_halts hexec
  all_goals rw [fetchesHlt_beginCycle] at hhlt
  · exact .inl ⟨hhlt, by simp [herr], by simp [herr]⟩
  · have hstatus : u.status = .running := by
      rw [fetchExecute_status hexec, beginCycle_status, hrunning]
    exact .inr (.inl ⟨hhlt, by simp [hgoes, hhalt, hstatus], by simp [hkept, herr]⟩)
  · exact .inr (.inr ⟨hhlt, by simp, by simp⟩)

end

end Sys2Proof.Machine

namespace Sys2Proof

open Sys2Proof.Machine

/-- Settles O52: after k steps the core has drifted k cells past `s` (`DriftedBy.step`, which counts every
step), so it still runs, and the rest is what `DriftedBy` says. -/
theorem runPastTheArrayNeverEnds : Obligations.RunPastTheArrayNeverEnds := by
  intro s hs hhalt hbound hpast
  have hstart : DriftedBy s 0 s := ⟨hs, hhalt, hbound, rfl, rfl, rfl, nofun⟩
  refine ⟨neverEnds_of_keeps (P := fun t => ∃ k, DriftedBy s k t)
    (fun ⟨_, h⟩ => h.running) (fun ⟨k, h⟩ hstep => ⟨k + 1, h.step hpast hstep⟩) ⟨0, hstart⟩,
    fun k t hrun => ?_⟩
  have hend : DriftedBy s k t := reaches_counts (fun h => h.step hpast) hstart hrun
  exact ⟨hend.pc, hend.mem, hend.acc, hend.dbg⟩

/-- Settles O45: the execute stage leaves at most one flag set (`fetchExecute_flagsExclusive`), and in
debug mode the post-cycle phase clears that one (`postCycle_flags_of_dbg`). -/
theorem debugModeLeavesNoFlagSet : Obligations.DebugModeLeavesNoFlagSet := by
  intro s t hs hstep hdbg
  obtain ⟨-, u, hexec, rfl⟩ := step_next hstep
  have hbegin : flagsExclusive (beginCycle s) := by simpa [flagsExclusive] using hs
  exact postCycle_flags_of_dbg (fetchExecute_flagsExclusive hbegin hexec)
    ((postCycle_dbg u).symm.trans hdbg)

/-- Settles O49: the three ways a cycle ends (`step_ends`) are told apart by the word fetched and by
err. -/
theorem runEndsOnlyByHltOrFatalError : Obligations.RunEndsOnlyByHltOrFatalError := by
  intro s t _ hhalt herr hstep
  change (t.status = .halted ↔ FetchesHlt s) ∧ _
  obtain ⟨hhlt, hstatus, hend⟩ | ⟨hhlt, hstatus, hend⟩ | ⟨hhlt, hstatus, hend⟩ :=
    step_ends hhalt herr hstep
  all_goals simp [hhlt, hstatus, hend]

end Sys2Proof
end
